-- ==== Sys2Proof/Word.lean ====
section
/-! DEFINITION. The values of the core: bytes, 64-bit words and byte sequences (00_scope.md R10, R12). -/

namespace Sys2Proof

/-- A 64-bit unsigned value; addition, multiplication and negation wrap modulo 2^64 (R10, R11, R86). -/
abbrev Word := BitVec 64

/-- A byte, 0 .. 255 (R12). -/
abbrev Byte := BitVec 8

/-- A byte sequence `p` with elements `p[0] .. p[L-1]` (R12). -/
abbrev Bytes := List Byte

end Sys2Proof
end

