-- ==== Sys2Proof/Machine/Operands.lean ====
section
/-! DEFINITION. Byte order and extension of operands (20_memory.md R44 to R46, 40_datapath_primitives.md R83 to R85,
43_finalization.md R117), and the slice a read of a byte space takes (00_scope.md R13). -/

namespace Sys2Proof.Machine

/-- `b[i .. i+n)`: what `PayRead(i, n)` takes of the payload and `MemRead(i, n)` of the carry buffer (R13, R41). -/
def slice (b : Bytes) (i n : Nat) : Bytes := (b.drop i).take n

/-- `b[0] + b[1]*2^8 + b[2]*2^16 + ...`: the first byte is the least significant (R44). -/
def leNat : Bytes → Nat
  | [] => 0
  | b :: bs => b.toNat + 2 ^ 8 * leNat bs

/-- LE64 (R83); its operand is 8 bytes. -/
def le64 (b : Bytes) : Word := BitVec.ofNat 64 (leNat b)

/-- LE32 (R84): a 4-byte word, zero-extended to 64 bits. -/
def le32 (b : Bytes) : Word := (BitVec.ofNat 32 (leNat b)).zeroExtend 64

/-- ZX8 (R85): a byte, zero-extended to 64 bits. -/
def zx8 (b : Byte) : Word := b.zeroExtend 64

/-- The byte `h[8k+7 : 8k]` of a word. -/
def byteAt (h : Word) (k : Nat) : Byte := h.extractLsb' (8 * k) 8

/-- BE64 (R117): `b[j] = h[63-8j : 56-8j]`, most significant byte first. -/
def be64 (h : Word) : Bytes :=
  [byteAt h 7, byteAt h 6, byteAt h 5, byteAt h 4, byteAt h 3, byteAt h 2, byteAt h 1, byteAt h 0]

/-- The `n` low bytes of `v`, least significant first: how the LEN field is laid out (R46, R64). -/
def leBytes : Nat → Nat → Bytes
  | 0, _ => []
  | n + 1, v => BitVec.ofNat 8 v :: leBytes n (v / 2 ^ 8)

end Sys2Proof.Machine
end

