-- ==== Sys2Proof/Syntax.lean ====
section
/-! DEFINITION. The five commands of the core (30_encoding.md R62), one constructor per row of spec/opcode_table.json. -/

namespace Sys2Proof

/-- A command. `WRITE` and `HASH` carry their PAYLOAD; their LEN operand is the payload's length (R64, R65), so the two
cannot disagree (log entry 8). -/
inductive Instr where
  /-- RESET, opcode 0x01 (R96). -/
  | reset
  /-- WRITE, opcode 0x02 (R97). -/
  | write (payload : Bytes)
  /-- SUM64, opcode 0x03 (R105). -/
  | sum64
  /-- SUMBE, opcode 0x04 (R116). -/
  | sumbe
  /-- HASH, opcode 0x05 (R122). -/
  | hash (payload : Bytes)
  deriving DecidableEq, Repr

/-- The payload bytes a command carries: none for the commands of format C0 (R61). -/
def Instr.payload : Instr → Bytes
  | .reset => []
  | .write p => p
  | .sum64 => []
  | .sumbe => []
  | .hash p => p

/-- The operand LEN (R64): the number of payload bytes. -/
def Instr.len (i : Instr) : Nat := i.payload.length

end Sys2Proof
end

