-- ==== Sys2Proof/WellFormed.lean ====
section
/-! DEFINITION. Which commands have a packet: LEN is a 64-bit field (30_encoding.md R64). -/

namespace Sys2Proof

/-- Every value `0 .. 2^64 - 1` of LEN is legal and no other can be written in the packet (R64, R97). -/
def Instr.wf (i : Instr) : Bool := decide (i.len < 2 ^ 64)

end Sys2Proof
end

