-- ==== Sys2Proof/Decode.lean ====
section
/-! DEFINITION. The packet decoder, total on every byte stream, and the encoder (30_encoding.md R61 to R69). -/

namespace Sys2Proof

open Sys2Proof.Machine (leNat le64 leBytes)

/-- What the decoder finds at a packet boundary (R66 to R68). -/
inductive Decoded where
  /-- A whole packet: its command and the bytes after its last byte. -/
  | packet (i : Instr) (rest : Bytes)
  /-- The opcode byte spells no command (R68); `rest` are the bytes after it. -/
  | illegal (op : Byte) (rest : Bytes)
  /-- The packet has begun and has not wholly arrived (R67). -/
  | incomplete
  /-- No byte has arrived. -/
  | empty
  deriving DecidableEq, Repr

/-- The opcode byte of each command (R62). -/
def Instr.opcode : Instr → Byte
  | .reset => 0x01
  | .write _ => 0x02
  | .sum64 => 0x03
  | .sumbe => 0x04
  | .hash _ => 0x05

/-- The rest of a packet of format CL after its opcode byte: LEN from the next eight bytes, little-endian, then LEN
payload bytes taken verbatim (R61, R64 to R66). -/
def decodeCL (command : Bytes → Instr) (bytes : Bytes) : Decoded :=
  if bytes.length < 8 then .incomplete
  else
    let len := (le64 (bytes.take 8)).toNat
    let body := bytes.drop 8
    if body.length < len then .incomplete
    else .packet (command (body.take len)) (body.drop len)

/-- The decoder at a packet boundary (R66): OP is compared as a whole byte (R62). -/
def decode : Bytes → Decoded
  | [] => .empty
  | op :: bytes =>
    if op = 0x01 then .packet .reset bytes
    else if op = 0x02 then decodeCL .write bytes
    else if op = 0x03 then .packet .sum64 bytes
    else if op = 0x04 then .packet .sumbe bytes
    else if op = 0x05 then decodeCL .hash bytes
    else .illegal op bytes

/-- The packet of a command (R61, R62, R64, R65). -/
def encode : Instr → Bytes
  | .reset => [0x01]
  | .write p => 0x02 :: (leBytes 8 p.length ++ p)
  | .sum64 => [0x03]
  | .sumbe => [0x04]
  | .hash p => 0x05 :: (leBytes 8 p.length ++ p)

/-- Number of bytes of a command's packet: 1 in format C0, `9 + LEN` in format CL (R61). -/
def Instr.packetBytes : Instr → Nat
  | .reset => 1
  | .write p => 9 + p.length
  | .sum64 => 1
  | .sumbe => 1
  | .hash p => 9 + p.length

/-- Where a byte stream leaves the decoder (R66 to R68, 70_reset_and_hazards.md R155). -/
inductive StreamEnd where
  | boundary
  | midPacket
  | illegal (op : Byte)
  deriving DecidableEq, Repr

/-- At most `fuel` packets of a byte stream, in order. -/
def decodeStreamAux : Nat → Bytes → List Instr × StreamEnd
  | 0, _ => ([], .boundary)
  | fuel + 1, bytes =>
    match decode bytes with
    | .packet i rest => (i :: (decodeStreamAux fuel rest).1, (decodeStreamAux fuel rest).2)
    | .illegal op _ => ([], .illegal op)
    | .incomplete => ([], .midPacket)
    | .empty => ([], .boundary)

/-- The decoder as a function from a byte stream to the commands it spells (R66), with what stands after the last whole
packet. Every packet has at least one byte, so the stream's length bounds their number. -/
def decodeStream (bytes : Bytes) : List Instr × StreamEnd := decodeStreamAux (bytes.length + 1) bytes

/-- The bytes of a table word: bit 0 of `w` is bit 0 of packet byte 0 (spec/opcode_table.json), every bit above `nbits`
is 0, and a packet of format CL goes on, with bytes of zero, to the end its LEN field gives. -/
def tableBytes (nbits w : Nat) : Bytes :=
  let v := w % 2 ^ nbits
  let op : Byte := BitVec.ofNat 8 v
  if op = 0x02 ∨ op = 0x05 then
    let head := leBytes (max 9 (nbits / 8)) v
    head ++ List.replicate (9 + (le64 ((head.drop 1).take 8)).toNat - head.length) 0
  else leBytes (max 1 (nbits / 8)) v

/-- The command the decoder reads from a word of the opcode table. -/
def decodeTableWord (nbits w : Nat) : Option Instr :=
  match decode (tableBytes nbits w) with
  | .packet i _ => some i
  | .illegal _ _ => none
  | .incomplete => none
  | .empty => none

end Sys2Proof
end

