-- ==== Sys2Proof/Config.lean ====
section
/-! DEFINITION. What is fixed while the core runs (10_state.md R31): the primes, the structural constants, the number
of cores of a platform. -/

namespace Sys2Proof

/-- The five 64-bit primes as a configuration record (00_scope.md R6, 92_eei_decisions.md D2). Every datapath function
takes the record, so that what holds for all values of the primes is stated so. -/
structure Primes where
  prime1 : Word
  prime2 : Word
  prime3 : Word
  prime4 : Word
  prime5 : Word
  deriving DecidableEq, Repr

/-- The values of R6, which the spec marks as general knowledge. PRESUMED (log entry 1), unsafe: the core's `step` runs
with this record, and `stepAt` with any other (10_state.md R31). (A proof about states should hold for all primes `P` and then be used at this record: unfolded inside a
state that has free variables, these values make the kernel compute for long.) -/
def Config.primes : Primes where
  prime1 := 0x9E3779B185EBCA87
  prime2 := 0xC2B2AE3D27D4EB4F
  prime3 := 0x165667B19E3779F9
  prime4 := 0x85EBCA77C2B2AE63
  prime5 := 0x27D4EB2F165667C5

/-- `LANES = 4` (R5). -/
abbrev Config.lanes : Nat := 4

/-- `WORD_BYTES = 8` (R5). -/
abbrev Config.wordBytes : Nat := 8

/-- `BLOCK_BYTES = LANES * WORD_BYTES = 32` (R5). -/
abbrev Config.blockBytes : Nat := 32

/-- `DIGEST_BYTES = 8` (R5). -/
abbrev Config.digestBytes : Nat := 8

/-- How many cores a platform has beyond its first: open (R9, D19). No value is given, so nothing can rest on one
(log entry 12). -/
opaque Config.coresBeyondFirst : Nat

/-- `NUM_INSTANCES`, any positive number (R9). -/
def Config.numCores : Nat := Config.coresBeyondFirst + 1

end Sys2Proof
end

