-- ==== Sys2Proof/Machine/Datapath.lean ====
section
/-! DEFINITION. The datapath primitives: rotate, round, merge round (40_datapath_primitives.md R80 to R82). All arithmetic
wraps modulo 2^64 and sets no flag (R86). -/

namespace Sys2Proof.Machine

/-- ROTL (R80), for `0 < r < 64`. -/
def rotl (x : Word) (r : Nat) : Word := (x <<< r) ||| (x >>> (64 - r))

/-- ROUND (R81). -/
def round (P : Primes) (acc input : Word) : Word := rotl (acc + input * P.prime2) 31 * P.prime1

/-- MERGE (R82). -/
def mergeRound (P : Primes) (acc val : Word) : Word := (acc ^^^ round P 0 val) * P.prime1 + P.prime4

end Sys2Proof.Machine
end

