-- ==== Sys2Proof/Machine/State.lean ====
section
/-! DEFINITION. The state of one core (10_state.md R20), its reset value (R33), and the ways a step can stop. -/

namespace Sys2Proof.Machine

/-- The four lane registers V1..V4 (R21). -/
structure Lanes where
  v1 : Word
  v2 : Word
  v3 : Word
  v4 : Word
  deriving DecidableEq, Repr

/-- `V1_INIT .. V4_INIT` (R23). -/
def Lanes.init (P : Primes) : Lanes where
  v1 := P.prime1 + P.prime2
  v2 := P.prime2
  v3 := 0
  v4 := -P.prime1

/-- The three kinds of response (30_encoding.md R70). -/
inductive Response where
  | unit
  | u64 (v : Word)
  /-- Eight bytes in order `b[0] .. b[7]`. -/
  | bytes8 (b : Bytes)
  deriving DecidableEq, Repr

/-- What can reach the core from outside: a byte at the command port (R61) or an assertion of the one reset input
(70_reset_and_hazards.md R150). DESIGN CHOICE (log entry 16): an assertion is one instantaneous event with no held or
released phase, so the byte after it is decoded from a packet boundary; what a block does if reset is released while bytes
are arriving is left open (R155). -/
inductive PortEvent where
  | byte (b : Byte)
  | hardwareReset
  deriving DecidableEq, Repr

/-- One core. The first four fields are the spec's architectural state (R20); the last three are the model's own. -/
structure State where
  /-- V1..V4 (R21). -/
  lanes : Lanes
  /-- TOTAL (R24). -/
  total : Word
  /-- BUF[0..N): N is the length (R25), and the unspecified bytes at or above N are not held (R26, log entry 2). -/
  buf : Bytes
  /-- FAULT (R27). -/
  fault : Bool
  /-- A hardware reset has completed: the first check of R136 (R151, log entry 3). -/
  resetDone : Bool
  /-- What the host has sent and the core has not consumed, in order of arrival; a partly arrived packet waits here
  (R30, R67, log entry 4). -/
  port : List PortEvent
  /-- Responses delivered to the host, oldest first (R70, R155, log entry 5). -/
  responses : List Response
  deriving DecidableEq, Repr

/-- A core right after hardware reset, with nothing sent to it (R33, R150), for any primes: no byte of BUF is valid since
N = 0. -/
def State.resetAt (P : Primes) : State where
  lanes := Lanes.init P
  total := 0
  buf := []
  fault := false
  resetDone := true
  port := []
  responses := []

/-- A core right after hardware reset, with the primes of the configuration. -/
def State.reset : State := State.resetAt Config.primes

/-- Stuck states: no step is possible until the host sends more (93_implementation_defined.md U8). Neither is the
spec's FAULT, and neither changes any state. -/
inductive Fault where
  /-- `step`, at a packet boundary with nothing sent. Safe: the core has nothing to do (R155: the good end of a run). -/
  | awaitingPacket
  /-- `step`, when the packet at the port has not wholly arrived: stuck, not faulted (R67). Safe. -/
  | packetIncomplete
  deriving DecidableEq, Repr

/-- Situations the spec gives no step. -/
inductive Refusal where
  /-- `exec`, for an instruction that has no meaning yet. Safe. -/
  | notModelled (mnemonic : String)
  /-- `step` and every command, before the first hardware reset: bytes are refused (R151). Safe. -/
  | beforeHardwareReset
  /-- `step` and every command, while FAULT = 1: "A model should give the faulted core no step" (R132). Safe. -/
  | faulted
  deriving DecidableEq, Repr

end Sys2Proof.Machine
end

