-- ==== Sys2Proof/Machine/Flags.lean ====
section
/-! DEFINITION. FAULT, the only flag (10_state.md R27): no arithmetic result sets a flag (40_datapath_primitives.md R86),
so what stands here is FAULT's status output and the check every command makes of it. -/

namespace Sys2Proof.Machine

/-- The one-bit status output that follows the FAULT register (60_exceptions.md R133). -/
def State.faultOutput (s : State) : BitVec 1 := BitVec.ofBool s.fault

/-- The checks before anything executes, in the order of R136: a hardware reset has completed (R151), then FAULT = 0
(R132). Every command requires both (R95, R105, R116, R122). -/
def whenReady (s : State) (effect : Host.Outcome State Fault Refusal) : Host.Outcome State Fault Refusal :=
  if s.resetDone then
    if s.fault then .refused .faulted else effect
  else .refused .beforeHardwareReset

end Sys2Proof.Machine
end

