-- ==== Sys2Proof/Machine/Ops.lean ====
section
/-! DEFINITION. The named operations on a core's state: the carry buffer (00_scope.md R13), responses, the port, taking
the one exception, and hardware reset. -/

namespace Sys2Proof.Machine

/-- N as an integer (10_state.md R25). -/
def State.n (s : State) : Nat := s.buf.length

/-- N as the 6-bit register (R25). -/
def State.nRegister (s : State) : BitVec 6 := BitVec.ofNat 6 s.n

/-- `MemRead(addr, n)`: BUF[addr] .. BUF[addr+n-1] (R13). -/
def State.memRead (s : State) (addr n : Nat) : Bytes := slice s.buf addr n

/-- `MemWrite(addr, len(v), v)` together with the `N <- addr + len(v)` that follows each of the three writes of the
carry buffer (20_memory.md R51; 42_stream_commands.md R98, R99, R101). -/
def State.memWrite (s : State) (addr : Nat) (v : Bytes) : State := { s with buf := s.buf.take addr ++ v }

/-- `N <- 0`: no byte of BUF is valid (R26). -/
def State.clearN (s : State) : State := { s with buf := [] }

/-- Write the lanes. -/
def State.setLanes (s : State) (v : Lanes) : State := { s with lanes := v }

/-- `TOTAL <- TOTAL + L`, modulo 2^64 (R24). -/
def State.addTotal (s : State) (L : Nat) : State := { s with total := s.total + BitVec.ofNat 64 L }

/-- `TOTAL <- 0`. -/
def State.clearTotal (s : State) : State := { s with total := 0 }

/-- Deliver a response to the host, after those of earlier commands (30_encoding.md R70). -/
def State.respond (s : State) (r : Response) : State := { s with responses := s.responses ++ [r] }

/-- What the RESET command does to the digest state (42_stream_commands.md R96). -/
def State.clearDigest (P : Primes) (s : State) : State := ((s.setLanes (Lanes.init P)).clearTotal).clearN

/-- `raise IllegalCommand(op)` (60_exceptions.md R131): FAULT <- 1 and nothing else; `op` is stored in no register. This
is the whole of taking an exception on this core (R137), and there is no return from it (R138). -/
def State.raiseIllegalCommand (s : State) (_op : Byte) : State := { s with fault := true }

/-- Hardware reset (70_reset_and_hazards.md R150): the effect of RESET, FAULT <- 0, no response. `rest` is what the port
holds after the reset event: a partly received packet before it is dropped. -/
def State.hardwareReset (P : Primes) (s : State) (rest : List PortEvent) : State :=
  { s.clearDigest P with fault := false, resetDone := true, port := rest }

/-- The bytes that have arrived at the port before the next assertion of the reset input. -/
def arrived : List PortEvent → Bytes
  | [] => []
  | .byte b :: es => b :: arrived es
  | .hardwareReset :: _ => []

/-- The port from the next assertion of the reset input on (empty where there is none). -/
def pending : List PortEvent → List PortEvent
  | [] => []
  | .byte _ :: es => pending es
  | .hardwareReset :: es => .hardwareReset :: es

/-- Bytes as the port receives them. -/
def portBytes (b : Bytes) : List PortEvent := b.map PortEvent.byte

/-- Consume the front of the port: `rest` is what remains of the bytes before the next reset event. -/
def State.consumeTo (s : State) (rest : Bytes) : State := { s with port := portBytes rest ++ pending s.port }

/-- Where no command can execute: the next assertion of the reset input acts, the bytes before it dropped (R132, R150);
with none in sight there is no step, for the reason `stuck`. -/
def awaitReset (P : Primes) (s : State) (stuck : Host.Outcome State Fault Refusal) :
    Host.Outcome State Fault Refusal :=
  match pending s.port with
  | .hardwareReset :: rest => .next (s.hardwareReset P rest)
  | .byte _ :: _ => stuck
  | [] => stuck

end Sys2Proof.Machine
end

