-- ==== Sys2Proof/Machine/Finalization.lean ====
section
/-! DEFINITION. The finalization pipeline and the commands SUM64 and SUMBE (43_finalization.md). -/

namespace Sys2Proof.Machine

/-- The sum that starts CONVERGE (R106). -/
def laneSum (v : Lanes) : Word := rotl v.v1 1 + rotl v.v2 7 + rotl v.v3 12 + rotl v.v4 18

/-- CONVERGE, the start of the long path (R106): the lanes are folded in the fixed order V1, V2, V3, V4. -/
def converge (P : Primes) (v : Lanes) : Word :=
  mergeRound P (mergeRound P (mergeRound P (mergeRound P (laneSum v) v.v1) v.v2) v.v3) v.v4

/-- SHORT, the start of the short path (R107): V3 is read from the state. -/
def short (P : Primes) (v : Lanes) : Word := v.v3 + P.prime5

/-- ADDLEN (R108). -/
def addLen (h total : Word) : Word := h + total

/-- TAIL8 (R109), on 8 bytes. -/
def tail8 (P : Primes) (h : Word) (b : Bytes) : Word :=
  rotl (h ^^^ round P 0 (le64 b)) 27 * P.prime1 + P.prime4

/-- TAIL4 (R110), on 4 bytes. -/
def tail4 (P : Primes) (h : Word) (b : Bytes) : Word :=
  rotl (h ^^^ (le32 b * P.prime1)) 23 * P.prime2 + P.prime3

/-- TAIL1 (R111). -/
def tail1 (P : Primes) (h : Word) (b : Byte) : Word := rotl (h ^^^ (zx8 b * P.prime5)) 11 * P.prime1

/-- `h ^ (h >> k)`, a logical shift. -/
def xorShift (h : Word) (k : Nat) : Word := h ^^^ (h >>> k)

/-- AVALANCHE (R113). -/
def avalanche (P : Primes) (h : Word) : Word :=
  xorShift (xorShift (xorShift h 33 * P.prime2) 29 * P.prime3) 32

/-- Tier (a) of R105: `while N - i >= 8`, TAIL8 at index `i`; at most `fuel` times. -/
def tail8Loop (P : Primes) (tail : Bytes) : Nat → Nat → Word → Nat × Word
  | 0, i, h => (i, h)
  | fuel + 1, i, h =>
    if 8 ≤ tail.length - i then tail8Loop P tail fuel (i + 8) (tail8 P h (slice tail i 8)) else (i, h)

/-- Tier (b) of R105: `if N - i >= 4`, TAIL4 at index `i`. -/
def tail4Step (P : Primes) (tail : Bytes) (i : Nat) (h : Word) : Nat × Word :=
  if 4 ≤ tail.length - i then (i + 4, tail4 P h (slice tail i 4)) else (i, h)

/-- Tier (c) of R105: `while i < N`, TAIL1 at index `i`; at most `fuel` times. -/
def tail1Loop (P : Primes) (tail : Bytes) : Nat → Nat → Word → Word
  | 0, _, h => h
  | fuel + 1, i, h =>
    match tail[i]? with
    | some b => tail1Loop P tail fuel (i + 1) (tail1 P h b)
    | none => h

/-- The three tiers of R105 over the tail, left to right. -/
def consumeTail (P : Primes) (tail : Bytes) (h : Word) : Word :=
  let a := tail8Loop P tail tail.length 0 h
  let b := tail4Step P tail a.1 a.2
  tail1Loop P tail tail.length b.1 b.2

/-- FINALIZE(v, t, tail), the pseudocode of R105 as a pure function (R115). The test is on the 64-bit register value,
unsigned (90_conflicts.md C6). -/
def finalize (P : Primes) (v : Lanes) (total : Word) (tail : Bytes) : Word :=
  let start := if 32#64 ≤ total then converge P v else short P v
  avalanche P (consumeTail P tail (addLen start total))

/-- The digest of a core's state: `FINALIZE((V1,V2,V3,V4), TOTAL, BUF[0..N))` (R115). -/
def State.digest (P : Primes) (s : State) : Word := finalize P s.lanes s.total (s.memRead 0 s.n)

/-- SUM64 (R105), for any primes. -/
def execSum64At (P : Primes) (s : State) : Host.Outcome State Fault Refusal :=
  whenReady s (.next (s.respond (.u64 (s.digest P))))

/-- SUMBE (R116), for any primes. -/
def execSumbeAt (P : Primes) (s : State) : Host.Outcome State Fault Refusal :=
  whenReady s (.next (s.respond (.bytes8 (be64 (s.digest P)))))

/-- SUM64 with the primes of the configuration. -/
def execSum64 (s : State) : Host.Outcome State Fault Refusal := execSum64At Config.primes s

/-- SUMBE with the primes of the configuration. -/
def execSumbe (s : State) : Host.Outcome State Fault Refusal := execSumbeAt Config.primes s

end Sys2Proof.Machine
end

