-- ==== Sys2Proof/Machine/BlockMixer.lean ====
section
/-! DEFINITION. The block mixer (41_block_mixer.md): MIXBLOCK and PROCESS as functions of the lanes. -/

namespace Sys2Proof.Machine

/-- MIXBLOCK (R90), on a block of 32 bytes: word `k` goes to lane `k+1` (10_state.md R22). -/
def mixBlock (P : Primes) (v : Lanes) (blk : Bytes) : Lanes where
  v1 := round P v.v1 (le64 (slice blk 0 8))
  v2 := round P v.v2 (le64 (slice blk 8 8))
  v3 := round P v.v3 (le64 (slice blk 16 8))
  v4 := round P v.v4 (le64 (slice blk 24 8))

/-- The first `nb` blocks of `s`, in order (R92). -/
def processBlocks (P : Primes) (s : Bytes) : Nat → Lanes → Lanes
  | 0, v => v
  | nb + 1, v => mixBlock P (processBlocks P s nb v) (slice s (32 * nb) 32)

/-- `PROCESS(lanes, s)` (R92): all the full blocks of `s`, of any length (R93). -/
def process (P : Primes) (v : Lanes) (s : Bytes) : Lanes := processBlocks P s (s.length / 32) v

/-- What PROCESS returns: the number of bytes consumed, a multiple of 32 (R92). -/
def processConsumed (s : Bytes) : Nat := 32 * (s.length / 32)

end Sys2Proof.Machine
end

