-- ==== Sys2Proof/Machine/Streaming.lean ====
section
/-! DEFINITION. The streaming commands RESET and WRITE (42_stream_commands.md). -/

namespace Sys2Proof.Machine

/-- Step 2 of WRITE (R99): if the carry buffer is not empty, top it off to 32 bytes from the front of the payload, mix
that block and empty the buffer. Also gives the payload position reached. N is 32 only between the write and the mix. -/
def topOff (P : Primes) (p : Bytes) (s : State) : State × Nat :=
  if 0 < s.n then
    let k := 32 - s.n
    let full := s.memWrite s.n (slice p 0 k)
    ((full.setLanes (mixBlock P full.lanes (full.memRead 0 32))).clearN, k)
  else (s, 0)

/-- Step 3 of WRITE (R100): `while L - i >= 32`, mix the block at payload position `i` and go on; at most `fuel` times. -/
def mixPayload (P : Primes) (p : Bytes) : Nat → Nat → Lanes → Lanes × Nat
  | 0, i, v => (v, i)
  | fuel + 1, i, v =>
    if 32 ≤ p.length - i then mixPayload P p fuel (i + 32) (mixBlock P v (slice p i 32)) else (v, i)

/-- Steps 2 to 4 of WRITE (R99 to R101), for a payload that fills at least one block. -/
def writeBlocks (P : Primes) (p : Bytes) (s : State) : State :=
  let topped := topOff P p s
  let mixed := mixPayload P p (p.length / 32) topped.2 topped.1.lanes
  (topped.1.setLanes mixed.1).memWrite 0 (p.drop mixed.2)

/-- WRITE without its response (R97): TOTAL, then step 1 if `N + L < 32` as integers (R98), else steps 2 to 4. -/
def writeDigest (P : Primes) (p : Bytes) (s : State) : State :=
  let counted := s.addTotal p.length
  if counted.n + p.length < 32 then counted.memWrite counted.n p else writeBlocks P p counted

/-- RESET (R96), for any primes. -/
def execResetAt (P : Primes) (s : State) : Host.Outcome State Fault Refusal :=
  whenReady s (.next ((s.clearDigest P).respond .unit))

/-- WRITE (R97), for any primes: responds the number of bytes accepted, which is always the payload's length (R103). -/
def execWriteAt (P : Primes) (p : Bytes) (s : State) : Host.Outcome State Fault Refusal :=
  whenReady s (.next ((writeDigest P p s).respond (.u64 (BitVec.ofNat 64 p.length))))

/-- RESET with the primes of the configuration. -/
def execReset (s : State) : Host.Outcome State Fault Refusal := execResetAt Config.primes s

/-- WRITE with the primes of the configuration. -/
def execWrite (p : Bytes) (s : State) : Host.Outcome State Fault Refusal := execWriteAt Config.primes p s

end Sys2Proof.Machine
end

