-- ==== Sys2Proof/Machine/OneShot.lean ====
section
/-! DEFINITION. One-shot hashing: the function XXH64 and the command HASH (44_oneshot.md). -/

namespace Sys2Proof.Machine

/-- XXH64(B) (R120): no carry buffer and no state. -/
def xxh64 (P : Primes) (B : Bytes) : Word :=
  finalize P (process P (Lanes.init P) B) (BitVec.ofNat 64 B.length) (B.drop (processConsumed B))

/-- The digest state HASH leaves: that of RESET and then WRITE(p) (R122, R123). -/
def hashDigest (P : Primes) (p : Bytes) (s : State) : State := writeDigest P p (s.clearDigest P)

/-- HASH (R122), for any primes. -/
def execHashAt (P : Primes) (p : Bytes) (s : State) : Host.Outcome State Fault Refusal :=
  let hashed := hashDigest P p s
  whenReady s (.next (hashed.respond (.u64 (hashed.digest P))))

/-- HASH with the primes of the configuration. -/
def execHash (p : Bytes) (s : State) : Host.Outcome State Fault Refusal := execHashAt Config.primes p s

end Sys2Proof.Machine
end

