-- ==== Sys2Proof/Machine/Dispatch.lean ====
section
/-! DEFINITION. One arm per command (30_encoding.md R62): the execution of a whole packet as one atomic step (R156). -/

namespace Sys2Proof.Machine

def exec (i : Instr) (s : State) : Host.Outcome State Fault Refusal :=
  match i with
  | .reset => Sys2Proof.Machine.execReset s
  | .write payload => Sys2Proof.Machine.execWrite payload s
  | .sum64 => Sys2Proof.Machine.execSum64 s
  | .sumbe => Sys2Proof.Machine.execSumbe s
  | .hash payload => Sys2Proof.Machine.execHash payload s

end Sys2Proof.Machine
end

