-- ==== Sys2Proof/Machine/Sequencer.lean ====
section
/-! DEFINITION. The core sequencer (00_scope.md R15): the checks of 60_exceptions.md R136 in their order, then the packet at
the port. The primes are a parameter of the step (10_state.md R31); `step` takes those of the configuration. -/

namespace Sys2Proof.Machine

/-- The five commands with the primes as a parameter (R31). -/
def execAt (P : Primes) (i : Instr) (s : State) : Host.Outcome State Fault Refusal :=
  match i with
  | .reset => execResetAt P s
  | .write payload => execWriteAt P payload s
  | .sum64 => execSum64At P s
  | .sumbe => execSumbeAt P s
  | .hash payload => execHashAt P payload s

/-- One step, where `run` executes a command. Before hardware reset (R151) and while FAULT = 1 (R132) only the reset input
acts. Else the packet at the port is decoded (R66): a whole packet is consumed and its command executes as one atomic step
(R156); an illegal opcode byte raises IllegalCommand (R131); a packet that has not wholly arrived waits (R67) unless the
reset input drops it (R150). -/
def stepBy (P : Primes) (run : Instr → State → Host.Outcome State Fault Refusal) (s : State) :
    Host.Outcome State Fault Refusal :=
  if s.resetDone then
    if s.fault then awaitReset P s (.refused .faulted)
    else
      match decode (arrived s.port) with
      | .packet i rest => run i (s.consumeTo rest)
      | .illegal op rest => .next ((s.consumeTo rest).raiseIllegalCommand op)
      | .incomplete => awaitReset P s (.fault .packetIncomplete)
      | .empty => awaitReset P s (.fault .awaitingPacket)
  else awaitReset P s (.refused .beforeHardwareReset)

/-- One step with the primes as a parameter (R31). -/
def stepAt (P : Primes) (s : State) : Host.Outcome State Fault Refusal := stepBy P (execAt P) s

end Sys2Proof.Machine
end

