-- ==== Sys2Proof/Machine/Step.lean ====
section
/-! DEFINITION. One step of the core, with the primes of the configuration. -/

namespace Sys2Proof.Machine

/-- One step: the sequencer over the commands of `exec`, with the primes of 00_scope.md R6 (log entry 1). -/
def step (s : State) : Host.Outcome State Fault Refusal := stepBy Config.primes exec s

/-- `s` with the packet of a table word at the front of its port: what the host sends next (log entry 10). -/
def State.withFetchWord (s : State) (nbits w : Nat) : State :=
  { s with port := portBytes (tableBytes nbits w) ++ s.port }

end Sys2Proof.Machine
end

