-- ==== Sys2Proof/Machine/Assembler.lean ====
section
/-! DEFINITION. The spec's notation for test programs (30_encoding.md R72, R73): one command per line, pseudo-commands,
and the packets a text stands for. None of it is hardware. Text is a list of characters. -/

namespace Sys2Proof.Machine

/-- The value of a hexadecimal digit. -/
def hexDigit (c : Char) : Option Nat :=
  let v := c.toNat
  if 48 ≤ v ∧ v ≤ 57 then some (v - 48)
  else if 97 ≤ v ∧ v ≤ 102 then some (v - 87)
  else if 65 ≤ v ∧ v ≤ 70 then some (v - 55)
  else none

/-- Two digits per byte, first byte first (R72): `none` for an odd number of digits or another character. -/
def hexBytes : List Char → Option Bytes
  | [] => some []
  | [_] => none
  | a :: b :: rest =>
    match hexDigit a, hexDigit b, hexBytes rest with
    | some x, some y, some bs => some (BitVec.ofNat 8 (16 * x + y) :: bs)
    | _, _, _ => none

/-- Each ASCII character one byte, no terminator (R72). -/
def asciiBytes : List Char → Option Bytes
  | [] => some []
  | c :: rest =>
    match decide (c.toNat < 128), asciiBytes rest with
    | true, some bs => some (BitVec.ofNat 8 c.toNat :: bs)
    | _, _ => none

/-- Consecutive pieces of `k` bytes, the last one shorter if needed; at most `fuel` of them. -/
def chunksAux (k : Nat) : Nat → Bytes → List Bytes
  | 0, _ => []
  | _ + 1, [] => []
  | fuel + 1, b :: bs => (b :: bs).take k :: chunksAux k fuel ((b :: bs).drop k)

/-- The pieces WRITEN cuts its operand into (R73), for `k ≥ 1`; an empty operand has none (log entry 13). -/
def chunks (k : Nat) (b : Bytes) : List Bytes := chunksAux k b.length b

/-- A line of assembly (R72, R73). -/
inductive AsmLine where
  | command (i : Instr)
  /-- Pseudo-command NEW. -/
  | new
  /-- Pseudo-command NOPW. -/
  | nopw
  /-- Pseudo-command WRITEN, with `k ≥ 1`. -/
  | writen (k : Nat) (bytes : Bytes)
  /-- A line `-> value`: the expected response of the command before it, which assembles to nothing. -/
  | expected (value : List Char)
  /-- Nothing but space and comment. -/
  | blank
  deriving DecidableEq, Repr

/-- The commands a line stands for (R73). -/
def AsmLine.expand : AsmLine → List Instr
  | .command i => [i]
  | .new => [.reset]
  | .nopw => [.write []]
  | .writen k b => (chunks k b).map Instr.write
  | .expected _ => []
  | .blank => []

/-- The packets of a program, one after another (R72). -/
def assemble (lines : List AsmLine) : Bytes := (lines.flatMap AsmLine.expand).flatMap encode

/-- Whether a character separates words. -/
def isBlankChar (c : Char) : Bool := c == ' ' || c == '\t' || c == '\r'

/-- The line up to its comment: `;` starts one, but not between double quotes (R72). -/
def stripComment : Bool → List Char → List Char
  | _, [] => []
  | quoted, c :: cs =>
    if c == ';' && !quoted then [] else c :: stripComment (if c == '"' then !quoted else quoted) cs

/-- Without the spaces at both ends. -/
def trimBlank (cs : List Char) : List Char :=
  ((cs.dropWhile isBlankChar).reverse.dropWhile isBlankChar).reverse

/-- `<bytes>` (R72): a double-quoted ASCII string, or `hex:` and digits. -/
def parseBytes (cs : List Char) : Option Bytes :=
  match cs with
  | 'h' :: 'e' :: 'x' :: ':' :: digits => hexBytes digits
  | '"' :: rest =>
    match rest.reverse with
    | '"' :: body => if body.contains '"' then none else asciiBytes body.reverse
    | _ => none
  | _ => none

/-- A decimal number of at least one digit. -/
def parseDecimal (cs : List Char) : Option Nat :=
  match cs with
  | [] => none
  | _ =>
    cs.foldl (fun acc c =>
      match acc with
      | none => none
      | some v => if 48 ≤ c.toNat ∧ c.toNat ≤ 57 then some (10 * v + (c.toNat - 48)) else none) (some 0)

/-- `<k>, <bytes>` of WRITEN (R73). -/
def parseWriten (operand : List Char) : Option AsmLine :=
  let count := operand.takeWhile (fun c => c != ',')
  match parseDecimal (trimBlank count), parseBytes (trimBlank (operand.drop (count.length + 1))) with
  | some (k + 1), some b => some (.writen (k + 1) b)
  | _, _ => none

/-- One line of assembly text; `none` where it is not of the form of R72 or R73. -/
def parseLine (text : List Char) : Option AsmLine :=
  let line := trimBlank (stripComment false text)
  let word := line.takeWhile (fun c => !isBlankChar c)
  let operand := trimBlank (line.drop word.length)
  if word = [] then some .blank
  else if word = ['-', '>'] then some (.expected operand)
  else if word = ['W', 'R', 'I', 'T', 'E'] then (parseBytes operand).map (fun b => .command (.write b))
  else if word = ['H', 'A', 'S', 'H'] then (parseBytes operand).map (fun b => .command (.hash b))
  else if word = ['W', 'R', 'I', 'T', 'E', 'N'] then parseWriten operand
  else if operand ≠ [] then none
  else if word = ['R', 'E', 'S', 'E', 'T'] then some (.command .reset)
  else if word = ['S', 'U', 'M', '6', '4'] then some (.command .sum64)
  else if word = ['S', 'U', 'M', 'B', 'E'] then some (.command .sumbe)
  else if word = ['N', 'E', 'W'] then some .new
  else if word = ['N', 'O', 'P', 'W'] then some .nopw
  else none

end Sys2Proof.Machine
end

