-- ==== Sys2Proof/Machine/Platform.lean ====
section
/-! DEFINITION. Several cores side by side: they share nothing but the primes (00_scope.md R9, 60_exceptions.md R143). -/

namespace Sys2Proof.Machine

/-- A platform of cores, each with its own state and its own command port (R143). -/
structure Platform where
  cores : List State
  deriving DecidableEq, Repr

/-- Every core right after its own hardware reset, with the primes and the number of cores as parameters (10_state.md
R31). -/
def Platform.resetAt (P : Primes) (numCores : Nat) : Platform := ⟨List.replicate numCores (State.resetAt P)⟩

/-- The same with the configuration: how many cores there are is open (R9). -/
def Platform.reset : Platform := Platform.resetAt Config.primes Config.numCores

/-- One step of the core numbered `k`, where `run` steps a core: `none` where the platform has no such core. -/
def Platform.stepCoreBy (run : State → Host.Outcome State Fault Refusal) (pl : Platform) (k : Nat) :
    Option (Host.Outcome Platform Fault Refusal) :=
  match pl.cores[k]? with
  | none => none
  | some s =>
    match run s with
    | .next t => some (.next ⟨pl.cores.set k t⟩)
    | .fault r => some (.fault r)
    | .refused r => some (.refused r)

/-- One step of core `k` with the primes of the configuration. -/
def Platform.stepCore (pl : Platform) (k : Nat) : Option (Host.Outcome Platform Fault Refusal) :=
  pl.stepCoreBy step k

end Sys2Proof.Machine
end

