-- ==== Sys2Proof/Machine/Schedule.lean ====
section
/-! DEFINITION. The micro-operations a command performs, as a list computed from N, TOTAL and LEN alone
(45_sequencing_and_system.md R127; the places are those of 43_finalization.md R112 and of R128), and a second, direct way
to run a command: run its list. `step` does not use this file; that the two ways agree is a statement. -/

namespace Sys2Proof.Machine

/-- A micro-operation with the index into BUF or the offset into the payload it works at (R128). -/
inductive MicroOp where
  | seedV1 | seedV2 | seedV3 | seedV4 | clearTotal | clearN
  | addTotal
  /-- Step 1 of WRITE: the whole payload to BUF[N..). -/
  | append
  /-- Step 2 of WRITE: the first `k` payload bytes to BUF[N..32). -/
  | topOff (k : Nat)
  /-- Step 2 of WRITE: mix BUF[0..32) and empty the buffer. -/
  | drain
  /-- Step 3 of WRITE: mix the payload block at offset `i`. -/
  | mixPayload (i : Nat)
  /-- Step 4 of WRITE: the payload from offset `i` on to BUF[0..). -/
  | keep (i : Nat)
  | converge | short | addLen
  | tail8 (i : Nat)
  | tail4 (i : Nat)
  | tail1 (i : Nat)
  | avalanche
  deriving DecidableEq, Repr

/-- A command at work: the core's state and the temporary `h` of finalization (00_scope.md R14). -/
structure Work where
  state : State
  h : Word
  deriving DecidableEq, Repr

/-- The effect of one micro-operation of a command with payload `p`. -/
def microStep (P : Primes) (p : Bytes) (w : Work) : MicroOp → Work
  | .seedV1 => { w with state := w.state.setLanes { w.state.lanes with v1 := P.prime1 + P.prime2 } }
  | .seedV2 => { w with state := w.state.setLanes { w.state.lanes with v2 := P.prime2 } }
  | .seedV3 => { w with state := w.state.setLanes { w.state.lanes with v3 := 0 } }
  | .seedV4 => { w with state := w.state.setLanes { w.state.lanes with v4 := -P.prime1 } }
  | .clearTotal => { w with state := w.state.clearTotal }
  | .clearN => { w with state := w.state.clearN }
  | .addTotal => { w with state := w.state.addTotal p.length }
  | .append => { w with state := w.state.memWrite w.state.n p }
  | .topOff k => { w with state := w.state.memWrite w.state.n (slice p 0 k) }
  | .drain => { w with state := (w.state.setLanes (mixBlock P w.state.lanes (w.state.memRead 0 32))).clearN }
  | .mixPayload i => { w with state := w.state.setLanes (mixBlock P w.state.lanes (slice p i 32)) }
  | .keep i => { w with state := w.state.memWrite 0 (p.drop i) }
  | .converge => { w with h := converge P w.state.lanes }
  | .short => { w with h := short P w.state.lanes }
  | .addLen => { w with h := addLen w.h w.state.total }
  | .tail8 i => { w with h := tail8 P w.h (w.state.memRead i 8) }
  | .tail4 i => { w with h := tail4 P w.h (w.state.memRead i 4) }
  | .tail1 i => { w with h := (w.state.memRead i 1).foldl (tail1 P) w.h }
  | .avalanche => { w with h := avalanche P w.h }

/-- Run a list of micro-operations in order. -/
def runMicro (P : Primes) (p : Bytes) (ops : List MicroOp) (w : Work) : Work := ops.foldl (microStep P p) w

/-- RESET: six register writes (42_stream_commands.md R96, 70_reset_and_hazards.md R161). -/
def resetSchedule : List MicroOp := [.seedV1, .seedV2, .seedV3, .seedV4, .clearTotal, .clearN]

/-- WRITE of `L` bytes onto a buffer of `n` (R97, R127): step 1 alone, or steps 2 to 4, where step 2 runs only on a buffer
that is not empty and step 3 mixes `floor((L - i)/32)` blocks. -/
def writeSchedule (n L : Nat) : List MicroOp :=
  if n + L < 32 then [.addTotal, .append]
  else
    let k := if 0 < n then 32 - n else 0
    .addTotal :: ((if 0 < n then [.topOff k, .drain] else [])
      ++ (List.range ((L - k) / 32)).map (fun b => .mixPayload (k + 32 * b))
      ++ [.keep (k + 32 * ((L - k) / 32))])

/-- The tail schedule of R112 for `n` valid bytes. -/
def tailSchedule (n : Nat) : List MicroOp :=
  (List.range (n / 8)).map (fun j => .tail8 (8 * j))
    ++ (if 4 ≤ n % 8 then [.tail4 (8 * (n / 8))] else [])
    ++ (List.range (n % 8 % 4)).map (fun j => .tail1 (8 * (n / 8) + (if 4 ≤ n % 8 then 4 else 0) + j))

/-- Finalization (43_finalization.md R105, R118). -/
def finalizeSchedule (total : Word) (n : Nat) : List MicroOp :=
  (if 32#64 ≤ total then MicroOp.converge else .short) :: .addLen :: (tailSchedule n ++ [.avalanche])

/-- The micro-operations of a command, from N, TOTAL and the command's LEN (R127). -/
def commandSchedule (i : Instr) (n : Nat) (total : Word) : List MicroOp :=
  match i with
  | .reset => resetSchedule
  | .write p => writeSchedule n p.length
  | .sum64 => finalizeSchedule total n
  | .sumbe => finalizeSchedule total n
  | .hash p =>
    resetSchedule ++ writeSchedule 0 p.length ++ finalizeSchedule (BitVec.ofNat 64 p.length) (p.length % 32)

/-- The response of a command whose micro-operations leave `h` (30_encoding.md R71). -/
def responseFrom (i : Instr) (h : Word) : Response :=
  match i with
  | .reset => .unit
  | .write p => .u64 (BitVec.ofNat 64 p.length)
  | .sum64 => .u64 h
  | .sumbe => .bytes8 (be64 h)
  | .hash _ => .u64 h

/-- A command's effect by its micro-operations: the state they leave, with the response delivered. -/
def runSchedule (P : Primes) (i : Instr) (s : State) : State :=
  let w := runMicro P i.payload (commandSchedule i s.n s.total) ⟨s, 0⟩
  w.state.respond (responseFrom i w.h)

/-- How many MIXBLOCK operations a schedule performs (R161). -/
def mixCount (ops : List MicroOp) : Nat :=
  (ops.filter fun
    | .drain => true
    | .mixPayload _ => true
    | _ => false).length

end Sys2Proof.Machine
end

