-- ==== Sys2Proof/Safety.lean ====
section
/-! DEFINITION. What a good state and a good run are (10_state.md R28, 70_reset_and_hazards.md R155). -/

namespace Sys2Proof.Machine

/-- The digest state stands for the logical input stream `S` (20_memory.md R42): items I2, I3 and I4 of R28, where the
number of tail bytes is `len(S) mod 32` (item I5). -/
structure Represents (P : Primes) (S : Bytes) (s : State) : Prop where
  /-- I2: TOTAL counts the bytes of `S`, modulo 2^64. -/
  total_eq : s.total = BitVec.ofNat 64 S.length
  /-- I3: the lanes reflect exactly the full blocks of `S`. -/
  lanes_eq : s.lanes = process P (Lanes.init P) S
  /-- I4: BUF[0..N) is the tail of `S`. -/
  buf_eq : s.buf = S.drop (32 * (S.length / 32))

/-- The invariant at rest: after a hardware reset the digest state stands for some stream (R28). A fault leaves the
digest state unchanged (60_exceptions.md R131), so the invariant does not ask FAULT = 0. -/
def AtRest (P : Primes) (s : State) : Prop := s.resetDone = true → ∃ S : Bytes, Represents P S s

/-- A core that executes commands: a hardware reset has completed and FAULT = 0 (42_stream_commands.md R95). -/
def Ready (s : State) : Prop := s.resetDone = true ∧ s.fault = false

/-- The opcode bytes that spell no command: 0x00 and 0x06 .. 0xFF (30_encoding.md R68). -/
abbrev IllegalOpcode (op : Byte) : Prop := op = 0x00 ∨ 0x06 ≤ op.toNat

/-- The commands that belong to one stream: WRITE, and the reads that may stand between writes (44_oneshot.md R121). -/
def StreamCommand : Instr → Prop
  | .reset => False
  | .write _ => True
  | .sum64 => True
  | .sumbe => True
  | .hash _ => False

/-- I1 of R28: the carry buffer is never left full. -/
abbrev State.bufWf (s : State) : Prop := s.n ≤ 31

/-- Command after command, as long as each answers a next state (R156). -/
def execAll : List Instr → State → Host.Outcome State Fault Refusal
  | [], s => .next s
  | i :: is, s =>
    match exec i s with
    | .next t => execAll is t
    | .fault r => .fault r
    | .refused r => .refused r

/-- Steps until none is possible, at most `fuel`: the last state. -/
def runPort : Nat → State → State
  | 0, s => s
  | fuel + 1, s =>
    match step s with
    | .next t => runPort fuel t
    | .fault _ => s
    | .refused _ => s

/-- A run (R155): hardware reset, then the bytes the host sends, to the end. Each step consumes at least one byte. -/
def runBytes (bytes : Bytes) : State := runPort (bytes.length + 1) { State.reset with port := portBytes bytes }

/-- The end of a good run (R155): FAULT = 0 and the byte stream ended on a packet boundary. -/
def GoodEnd (s : State) : Prop := s.fault = false ∧ s.port = []

end Sys2Proof.Machine
end

