-- ==== Sys2Proof/Certificates/Slice0/Obligations.lean ====
section
/-! DEFINITION. The statements for the provers. `port` and `responses` are the model's own fields (log entries 4 and 5);
the primes stand by name (log entry 1) but where a docstring says so. -/

open Sys2Proof Sys2Proof.Machine

/-! ### Packets -/

/-- The packets of 30_encoding.md R74, each in both directions. -/
def Obligations.PacketExamplesOfTheSpec : Prop :=
  (encode .reset = [0x01] ∧ decode [0x01] = .packet .reset []) ∧
  (encode .sum64 = [0x03] ∧ decode [0x03] = .packet .sum64 []) ∧
  (encode .sumbe = [0x04] ∧ decode [0x04] = .packet .sumbe []) ∧
  (encode (.write [0x61, 0x62, 0x63]) = [0x02, 0x03, 0, 0, 0, 0, 0, 0, 0, 0x61, 0x62, 0x63] ∧
    decode [0x02, 0x03, 0, 0, 0, 0, 0, 0, 0, 0x61, 0x62, 0x63] = .packet (.write [0x61, 0x62, 0x63]) []) ∧
  (encode (.write []) = [0x02, 0, 0, 0, 0, 0, 0, 0, 0] ∧
    decode [0x02, 0, 0, 0, 0, 0, 0, 0, 0] = .packet (.write []) []) ∧
  (encode (.hash [0x61]) = [0x05, 0x01, 0, 0, 0, 0, 0, 0, 0, 0x61] ∧
    decode [0x05, 0x01, 0, 0, 0, 0, 0, 0, 0, 0x61] = .packet (.hash [0x61]) []) ∧
  (∀ d : Bytes, d.length = 256 →
    encode (.write d) = [0x02, 0x00, 0x01, 0, 0, 0, 0, 0, 0] ++ d ∧
    decode ([0x02, 0x00, 0x01, 0, 0, 0, 0, 0, 0] ++ d) = .packet (.write d) [])

/-- Decoding the packet of any well-formed command gives it back, and the bytes after the packet (R61, R64 to R66). -/
def Obligations.DecodeOfEncodeIsTheCommand : Prop :=
  ∀ (i : Instr), i.wf = true → ∀ rest : Bytes, decode (encode i ++ rest) = .packet i rest

/-- Whatever the decoder reads as a packet is a well-formed command's packet, byte for byte. -/
def Obligations.DecodedBytesAreThePacket : Prop :=
  ∀ (b rest : Bytes) (i : Instr), decode b = .packet i rest → i.wf = true ∧ b = encode i ++ rest

/-- A packet takes effect only when it is complete (R67): a proper beginning of one leaves a ready core stuck, and the
remaining bytes let the command execute. -/
def Obligations.IncompletePacketWaits : Prop :=
  ∀ (i : Instr) (s : State), i.wf = true → Ready s →
    (∀ k, 0 < k → k < (encode i).length →
      step { s with port := portBytes ((encode i).take k) } = .fault .packetIncomplete) ∧
    step { s with port := portBytes (encode i) } = exec i { s with port := [] }

/-- A stream of whole packets decodes to its commands, payload bytes never read as opcodes, and the decoder goes no
further than an illegal opcode byte (R66, R68). -/
def Obligations.StreamDecodesToItsCommands : Prop :=
  ∀ cmds : List Instr, (∀ i ∈ cmds, i.wf = true) →
    decodeStream (cmds.flatMap encode) = (cmds, .boundary) ∧
    ∀ (op : Byte) (junk : Bytes), IllegalOpcode op →
      decodeStream (cmds.flatMap encode ++ op :: junk) = (cmds, .illegal op)

/-- The pseudo-commands and their expansions (R73; that an empty operand of WRITEN gives no command is the model's choice,
log entry 13). -/
def Obligations.PseudoCommandsExpand : Prop :=
  AsmLine.new.expand = [.reset] ∧
  AsmLine.nopw.expand = [.write []] ∧ assemble [.nopw] = [0x02, 0, 0, 0, 0, 0, 0, 0, 0] ∧
  ∀ (k : Nat) (b : Bytes), 1 ≤ k →
    ∃ pieces : List Bytes, (AsmLine.writen k b).expand = pieces.map Instr.write ∧ pieces.flatten = b ∧
      (∀ c ∈ pieces, 1 ≤ c.length ∧ c.length ≤ k) ∧ ∀ c ∈ pieces.dropLast, c.length = k

/-! ### Datapath -/

/-- Bit `i` of `x` becomes bit `(i + r) mod 64` of `rotl(x, r)` (40_datapath_primitives.md section 1; the direction is the
spec's general knowledge, log entry 9). -/
def Obligations.RotlMovesEachBit : Prop :=
  ∀ (x : Word) (r i : Nat), 0 < r → r < 64 → i < 64 → (rotl x r).getLsbD ((i + r) % 64) = x.getLsbD i

/-- ROUND is a bijection in either operand for odd primes (an inference of 40_datapath_primitives.md section 2). -/
def Obligations.RoundIsABijection : Prop :=
  ∀ P : Primes, P.prime1.getLsbD 0 = true → P.prime2.getLsbD 0 = true →
    (∀ input : Word, Function.Bijective fun acc => round P acc input) ∧
    ∀ acc : Word, Function.Bijective fun input => round P acc input

/-- AVALANCHE is a bijection for odd primes (an inference of 43_finalization.md section 2). -/
def Obligations.AvalancheIsABijection : Prop :=
  ∀ P : Primes, P.prime2.getLsbD 0 = true → P.prime3.getLsbD 0 = true → Function.Bijective (avalanche P)

/-- LE64 (40_datapath_primitives.md R83): the formula, distinct byte patterns give distinct values, the example. -/
def Obligations.Le64ReadsLittleEndian : Prop :=
  (∀ b0 b1 b2 b3 b4 b5 b6 b7 : Byte,
    (le64 [b0, b1, b2, b3, b4, b5, b6, b7]).toNat =
      b0.toNat + b1.toNat * 2 ^ 8 + b2.toNat * 2 ^ 16 + b3.toNat * 2 ^ 24 + b4.toNat * 2 ^ 32 + b5.toNat * 2 ^ 40 +
        b6.toNat * 2 ^ 48 + b7.toNat * 2 ^ 56) ∧
  (∀ a b : Bytes, a.length = 8 → b.length = 8 → le64 a = le64 b → a = b) ∧
  le64 [0x00, 0x01, 0x02, 0x03, 0x04, 0x05, 0x06, 0x07] = 0x0706050403020100

/-- LE32 and ZX8 widen without a sign (40_datapath_primitives.md section 4; zero extension is the spec's general
knowledge, log entry 9). -/
def Obligations.NarrowOperandsAreZeroExtended : Prop :=
  (∀ b0 b1 b2 b3 : Byte,
    (le32 [b0, b1, b2, b3]).toNat = b0.toNat + b1.toNat * 2 ^ 8 + b2.toNat * 2 ^ 16 + b3.toNat * 2 ^ 24) ∧
  (∀ b : Bytes, b.length = 4 → ∀ k, 32 ≤ k → (le32 b).getLsbD k = false) ∧
  (∀ b : Byte, (zx8 b).toNat = b.toNat) ∧
  le32 [0xFF, 0xFF, 0xFF, 0xFF] = 0x00000000FFFFFFFF

/-- BE64 (43_finalization.md R117): which bits each byte is, eight bytes always, the inverse order of LE64, the example. -/
def Obligations.Be64IsBigEndian : Prop :=
  (∀ h : Word, (be64 h).length = 8 ∧ (∀ j, j < 8 → (be64 h)[j]? = some (h.extractLsb' (56 - 8 * j) 8)) ∧
    le64 (be64 h).reverse = h) ∧
  be64 0x0C535D1ACAFB8EAD = [0x0C, 0x53, 0x5D, 0x1A, 0xCA, 0xFB, 0x8E, 0xAD]

/-! ### Block mixer -/

/-- Word `k` of a block goes to lane `k+1`, which becomes ROUND of itself and that word, and to no other; no lane reads
another (10_state.md section 2, 41_block_mixer.md section 1). -/
def Obligations.EachWordMixesItsOwnLane : Prop :=
  ∀ (P : Primes) (v w : Lanes) (a b : Bytes), a.length = 32 → b.length = 32 →
    ((mixBlock P v a).v1 = round P v.v1 (le64 (slice a 0 8)) ∧
      (mixBlock P v a).v2 = round P v.v2 (le64 (slice a 8 8)) ∧
      (mixBlock P v a).v3 = round P v.v3 (le64 (slice a 16 8)) ∧
      (mixBlock P v a).v4 = round P v.v4 (le64 (slice a 24 8))) ∧
    (v.v1 = w.v1 → slice a 0 8 = slice b 0 8 → (mixBlock P v a).v1 = (mixBlock P w b).v1) ∧
    (v.v2 = w.v2 → slice a 8 8 = slice b 8 8 → (mixBlock P v a).v2 = (mixBlock P w b).v2) ∧
    (v.v3 = w.v3 → slice a 16 8 = slice b 16 8 → (mixBlock P v a).v3 = (mixBlock P w b).v3) ∧
    (v.v4 = w.v4 → slice a 24 8 = slice b 24 8 → (mixBlock P v a).v4 = (mixBlock P w b).v4)

/-- PROCESS mixes as many full blocks as are present, in order, reads nothing after them, and tells how many bytes it
consumed (41_block_mixer.md section 2). -/
def Obligations.ProcessMixesFullBlocksInOrder : Prop :=
  ∀ (P : Primes) (v : Lanes) (blocks : List Bytes) (tail : Bytes),
    (∀ blk ∈ blocks, blk.length = 32) → tail.length < 32 →
    process P v (blocks.flatten ++ tail) = blocks.foldl (mixBlock P) v ∧
    processConsumed (blocks.flatten ++ tail) = 32 * blocks.length

/-- PROCESS of a whole number of blocks and then more is PROCESS twice (41_block_mixer.md section 2). -/
def Obligations.ProcessOfConcatenation : Prop :=
  ∀ (P : Primes) (v : Lanes) (a b : Bytes), a.length % 32 = 0 →
    process P v (a ++ b) = process P (process P v a) b

/-! ### RESET and WRITE -/

/-- RESET (42_stream_commands.md R96): what it writes, that it changes nothing else but the response it gives, that it
is idempotent, and that it is refused and leaves FAULT alone while FAULT = 1. -/
def Obligations.ResetSeedsTheState : Prop :=
  ∀ s : State,
    (Ready s →
      exec .reset s = .next { s with
        lanes := ⟨Config.primes.prime1 + Config.primes.prime2, Config.primes.prime2, 0, -Config.primes.prime1⟩
        total := 0
        buf := []
        responses := s.responses ++ [.unit] }) ∧
    (∀ t u : State, exec .reset s = .next t → exec .reset t = .next u →
      u.lanes = t.lanes ∧ u.total = t.total ∧ u.n = t.n) ∧
    (s.resetDone = true → s.fault = true → exec .reset s = .refused .faulted)

/-- WRITE, step 1 (R98): where the payload and the carry buffer stay under 32 bytes it is appended at index N, no lane
changes, and the command is complete. TOTAL and the response are R97's. -/
def Obligations.WriteBuffersWhatFits : Prop :=
  ∀ (p : Bytes) (s : State), Ready s → s.n + p.length < 32 →
    ∃ t : State, exec (.write p) s = .next t ∧ t.n = s.n + p.length ∧ t.n ≤ 31 ∧
      t = { s with
        total := s.total + BitVec.ofNat 64 p.length
        buf := s.buf ++ p
        responses := s.responses ++ [.u64 (BitVec.ofNat 64 p.length)] }

/-- WRITE, steps 2 to 4 (R97, R99 to R101): a carry buffer that is not empty is topped off and mixed, the full blocks
that remain are mixed from the payload, and the last bytes become the new buffer. With an empty buffer step 2 is
skipped. -/
def Obligations.WriteMixesEveryFullBlock : Prop :=
  ∀ (p : Bytes) (s : State), Ready s → s.n ≤ 31 → 32 ≤ s.n + p.length →
    (0 < s.n →
      exec (.write p) s = .next { s with
        lanes := process Config.primes (mixBlock Config.primes s.lanes (s.buf ++ p.take (32 - s.n)))
          (p.drop (32 - s.n))
        total := s.total + BitVec.ofNat 64 p.length
        buf := p.drop ((32 - s.n) + 32 * ((p.length - (32 - s.n)) / 32))
        responses := s.responses ++ [.u64 (BitVec.ofNat 64 p.length)] }) ∧
    (s.n = 0 →
      exec (.write p) s = .next { s with
        lanes := process Config.primes s.lanes p
        total := s.total + BitVec.ofNat 64 p.length
        buf := p.drop (32 * (p.length / 32))
        responses := s.responses ++ [.u64 (BitVec.ofNat 64 p.length)] })

/-- The frame of WRITE: FAULT, the reset bit and the port are left alone. Step 1 stores BUF[N..N+L) and every other byte
of BUF reads as before. Steps 2 to 4 leave BUF[0..N) to hold exactly the last bytes of the payload. -/
def Obligations.WriteFrame : Prop :=
  ∀ (p : Bytes) (s t : State), s.n ≤ 31 → exec (.write p) s = .next t →
    t.fault = s.fault ∧ t.resetDone = s.resetDone ∧ t.port = s.port ∧
    (s.n + p.length < 32 → t.lanes = s.lanes ∧
      ∀ a, (a < s.n ∨ s.n + p.length ≤ a) → t.buf[a]? = s.buf[a]?) ∧
    (32 ≤ s.n + p.length → t.n = (s.n + p.length) % 32 ∧
      ∀ a, a < t.n → t.buf[a]? = p[p.length - t.n + a]?)

/-- A write of nothing changes nothing but the response it gives (a corner case of 42_stream_commands.md section 2). -/
def Obligations.EmptyWriteIsANoOp : Prop :=
  ∀ s : State, Ready s → s.n ≤ 31 → exec (.write []) s = .next { s with responses := s.responses ++ [.u64 0] }

/-- One write or two: `WRITE a; WRITE b` and `WRITE (a ++ b)` leave the same V1..V4, TOTAL, N and BUF[0..N)
(42_stream_commands.md section 2, an inference of the spec). -/
def Obligations.ChunkingDoesNotMatter : Prop :=
  ∀ (a b : Bytes) (s : State), Ready s → s.n ≤ 31 →
    ∃ t1 t2 u : State, exec (.write a) s = .next t1 ∧ exec (.write b) t1 = .next t2 ∧
      exec (.write (a ++ b)) s = .next u ∧ t2.lanes = u.lanes ∧ t2.total = u.total ∧ t2.buf = u.buf

/-- A state that stands for the stream `S` stands for `S ++ p` after WRITE(p) (42_stream_commands.md section 2, an
inference of the spec: invariants I1 to I5 are kept). -/
def Obligations.WriteAppendsToTheStream : Prop :=
  ∀ (S p : Bytes) (s : State), Ready s → Represents Config.primes S s →
    ∃ t : State, exec (.write p) s = .next t ∧ Represents Config.primes (S ++ p) t

/-! ### Finalization -/

/-- SUM64 (43_finalization.md section 1 and section 3): the response is FINALIZE of the lanes, TOTAL and BUF[0..N), and no
state changes. -/
def Obligations.Sum64RespondsTheDigest : Prop :=
  ∀ s : State, Ready s →
    exec .sum64 s = .next { s with
      responses := s.responses ++ [.u64 (finalize Config.primes s.lanes s.total s.buf)] }

/-- SUMBE (R116): the eight big-endian bytes of the value SUM64 would respond, and no state changes. -/
def Obligations.SumbeRespondsBigEndianBytes : Prop :=
  ∀ s : State, Ready s → ∃ (h : Word) (t : State),
    exec .sum64 s = .next t ∧ t.responses = s.responses ++ [.u64 h] ∧
    exec .sumbe s = .next { s with responses := s.responses ++ [.bytes8 (be64 h)] }

/-- On the short path V1, V2 and V4 are not read (43_finalization.md section 2). -/
def Obligations.ShortPathReadsOnlyV3 : Prop :=
  ∀ (P : Primes) (v w : Lanes) (total : Word) (tail : Bytes), total < 32#64 → v.v3 = w.v3 →
    finalize P v total tail = finalize P w total tail

/-- The tail schedule (43_finalization.md section 2, an inference of the spec): TAIL8 `floor(N/8)` times, TAIL4 once if
`N mod 8 >= 4`, TAIL1 on each byte left, at the indices the spec gives. -/
def Obligations.TailIsConsumedBySchedule : Prop :=
  ∀ (P : Primes) (tail : Bytes) (h : Word),
    consumeTail P tail h =
      (tail.drop (8 * (tail.length / 8) + if 4 ≤ tail.length % 8 then 4 else 0)).foldl (tail1 P)
        (if 4 ≤ tail.length % 8 then
          tail4 P ((List.range (tail.length / 8)).foldl (fun g j => tail8 P g (slice tail (8 * j) 8)) h)
            (slice tail (8 * (tail.length / 8)) 4)
        else (List.range (tail.length / 8)).foldl (fun g j => tail8 P g (slice tail (8 * j) 8)) h)

/-- The document's vector through each reading command: with the primes of log entry 1 (PRESUMED) the empty digest is
0xEF46DB3751D8E999. -/
def Obligations.EmptyDigestVector : Prop :=
  exec .sum64 State.reset = .next { State.reset with responses := [.u64 0xEF46DB3751D8E999] } ∧
  exec .sumbe State.reset = .next { State.reset with
    responses := [.bytes8 [0xEF, 0x46, 0xDB, 0x37, 0x51, 0xD8, 0xE9, 0x99]] } ∧
  exec (.hash []) State.reset = .next { State.reset with responses := [.u64 0xEF46DB3751D8E999] }

/-! ### One-shot hashing -/

/-- The equivalence law (44_oneshot.md R121): from any ready core, RESET, then writes of any chunks with any reads between
them, then SUM64, responds XXH64 of the chunks' concatenation. -/
def Obligations.StreamingEqualsOneShot : Prop :=
  ∀ (cmds : List Instr) (s : State), Ready s → (∀ i ∈ cmds, StreamCommand i) →
    (cmds.flatMap Instr.payload).length < 2 ^ 64 →
    ∃ t : State, execAll (.reset :: (cmds ++ [.sum64])) s = .next t ∧
      t.responses.getLast? = some (.u64 (xxh64 Config.primes (cmds.flatMap Instr.payload)))

/-- HASH (R122, R123): the state after it is that after RESET and WRITE(p), and it gives one response, FINALIZE of that
state. -/
def Obligations.HashIsResetWriteFinalize : Prop :=
  ∀ (p : Bytes) (s : State), Ready s →
    ∃ t0 t1 : State, exec .reset s = .next t0 ∧ exec (.write p) t0 = .next t1 ∧
      exec (.hash p) s = .next { t1 with
        responses := s.responses ++ [.u64 (finalize Config.primes t1.lanes t1.total t1.buf)] }

/-- HASH(p) from any ready core: response XXH64(p), lanes mixed over the full blocks of `p`, TOTAL the length, BUF the
tail; none of it depends on the state before (44_oneshot.md sections 1 and 2). -/
def Obligations.HashDependsOnItsPayloadAlone : Prop :=
  ∀ (p : Bytes) (s : State), Ready s →
    exec (.hash p) s = .next { s with
      lanes := process Config.primes (Lanes.init Config.primes) p
      total := BitVec.ofNat 64 p.length
      buf := p.drop (32 * (p.length / 32))
      responses := s.responses ++ [.u64 (xxh64 Config.primes p)] }

/-! ### Every command -/

/-- The five commands raise no exception, for any operand and any state with FAULT = 0 after a reset
(60_exceptions.md R130). -/
def Obligations.CommandsNeverFail : Prop :=
  ∀ (i : Instr) (s : State), Ready s → ∃ t : State, exec i s = .next t ∧ t.fault = false

/-- Exactly one response per completed command, after those of earlier commands, with the value R71 gives; a refused
command gives none. -/
def Obligations.EachCommandRespondsOnce : Prop :=
  ∀ s : State,
    (Ready s →
      (∃ t, exec .reset s = .next t ∧ t.responses = s.responses ++ [.unit]) ∧
      (∀ p, ∃ t, exec (.write p) s = .next t ∧ t.responses = s.responses ++ [.u64 (BitVec.ofNat 64 p.length)]) ∧
      (∃ t, exec .sum64 s = .next t ∧
        t.responses = s.responses ++ [.u64 (finalize Config.primes s.lanes s.total s.buf)]) ∧
      (∃ t, exec .sumbe s = .next t ∧
        t.responses = s.responses ++ [.bytes8 (be64 (finalize Config.primes s.lanes s.total s.buf))]) ∧
      (∀ p, ∃ t, exec (.hash p) s = .next t ∧ t.responses = s.responses ++ [.u64 (xxh64 Config.primes p)])) ∧
    (¬ Ready s → ∀ (i : Instr) (t : State), exec i s ≠ .next t)

/-- Each command is the run of its list of micro-operations, for any primes and for those of the configuration; and the list
is computed from the opcode, N, TOTAL and LEN alone: no other property of the payload enters it
(45_sequencing_and_system.md section 1, an inference of the spec; the split of the lists is log entry 14). -/
def Obligations.CommandsRunTheirSchedule : Prop :=
  (∀ (P : Primes) (i : Instr) (s : State), Ready s → s.n ≤ 31 → execAt P i s = .next (runSchedule P i s)) ∧
  (∀ (i : Instr) (s : State), Ready s → s.n ≤ 31 → exec i s = .next (runSchedule Config.primes i s)) ∧
  (∀ (i j : Instr) (n : Nat) (total : Word), i.opcode = j.opcode → i.len = j.len →
    commandSchedule i n total = commandSchedule j n total)

/-- How many MIXBLOCK operations each command performs, and how many tail steps (70_reset_and_hazards.md section 6 and
43_finalization.md section 2, inferences of the spec). -/
def Obligations.MicroOperationCounts : Prop :=
  ∀ (n : Nat) (total : Word), n ≤ 31 →
    mixCount (commandSchedule .reset n total) = 0 ∧
    (∀ p : Bytes, mixCount (commandSchedule (.write p) n total) = (n + p.length) / 32) ∧
    mixCount (commandSchedule .sum64 n total) = 0 ∧
    mixCount (commandSchedule .sumbe n total) = 0 ∧
    (∀ p : Bytes, mixCount (commandSchedule (.hash p) n total) = p.length / 32) ∧
    (tailSchedule n).length = n / 8 + (if 4 ≤ n % 8 then 1 else 0) + n % 4 ∧ (tailSchedule n).length ≤ 7

/-! ### Steps, the exception, reset -/

/-- A step of a ready core whose port holds a whole packet is the execution of its command, with the packet consumed and
the rest of the port left (30_encoding.md section 4). -/
def Obligations.StepExecutesThePacket : Prop :=
  ∀ (s : State) (i : Instr) (rest : Bytes), Ready s → decode (arrived s.port) = .packet i rest →
    step s = exec i { s with port := portBytes rest ++ pending s.port }

/-- IllegalCommand (60_exceptions.md R131): an illegal opcode byte at a packet boundary sets FAULT and changes nothing
else, with no response; and nothing but such a byte sets FAULT. -/
def Obligations.IllegalOpcodeIsTheOnlyException : Prop :=
  ∀ s : State, Ready s →
    (∀ (op : Byte) (rest : Bytes), arrived s.port = op :: rest → IllegalOpcode op →
      step s = .next { s with fault := true, port := portBytes rest ++ pending s.port }) ∧
    (∀ t : State, step s = .next t → t.fault = true →
      ∃ (op : Byte) (rest : Bytes), arrived s.port = op :: rest ∧ IllegalOpcode op)

/-- While FAULT = 1 the core executes nothing, and only the reset input, which clears FAULT, gives it a step
(60_exceptions.md R132). -/
def Obligations.FaultedCoreExecutesNothing : Prop :=
  ∀ s : State, s.resetDone = true → s.fault = true →
    (∀ i : Instr, exec i s = .refused .faulted) ∧
    (pending s.port = [] → step s = .refused .faulted) ∧
    (∀ t : State, step s = .next t → t.fault = false ∧ ∃ rest, pending s.port = .hardwareReset :: rest)

/-- The order of checks when bytes arrive at a packet boundary (60_exceptions.md R136): hardware reset completed, FAULT,
then the opcode, which raises IllegalCommand if it is none of the five and else does not. -/
def Obligations.ChecksAreMadeInOrder : Prop :=
  ∀ (s : State) (op : Byte) (rest : Bytes), s.port = portBytes (op :: rest) →
    (s.resetDone = false → step s = .refused .beforeHardwareReset) ∧
    (s.resetDone = true → s.fault = true → step s = .refused .faulted) ∧
    (s.resetDone = true → s.fault = false → IllegalOpcode op →
      step s = .next { s with fault := true, port := portBytes rest }) ∧
    (s.resetDone = true → s.fault = false → ¬ IllegalOpcode op → ∀ t : State, step s = .next t → t.fault = false)

/-- Hardware reset (70_reset_and_hazards.md R150) acts in any state at rest, before a first reset and with FAULT = 1, and
in the middle of a packet, which it drops with every byte before it. -/
def Obligations.HardwareResetFromAnyState : Prop :=
  ∀ (s : State) (b : Bytes) (rest : List PortEvent), s.port = portBytes b ++ .hardwareReset :: rest →
    (b = [] ∨ s.resetDone = false ∨ s.fault = true ∨ decode b = .incomplete) →
    step s = .next
      { lanes := ⟨Config.primes.prime1 + Config.primes.prime2, Config.primes.prime2, 0, -Config.primes.prime1⟩
        total := 0
        buf := []
        fault := false
        resetDone := true
        port := rest
        responses := s.responses }

/-- The state hardware reset leaves, in numbers (10_state.md section 8; the lanes rest on the primes of log entry 1,
PRESUMED). -/
def Obligations.ResetStateValues : Prop :=
  State.reset.lanes = ⟨0x60EA27EEADC0B5D6, 0xC2B2AE3D27D4EB4F, 0x0000000000000000, 0x61C8864E7A143579⟩ ∧
  State.reset.total = 0 ∧ State.reset.nRegister = 0 ∧ State.reset.fault = false ∧ State.reset.faultOutput = 0

/-! ### Invariant and runs -/

/-- The invariant of 10_state.md section 6 holds after hardware reset, for the empty stream. -/
def Obligations.ResetStateIsAtRest : Prop :=
  Represents Config.primes [] State.reset ∧ AtRest Config.primes State.reset

/-- Every step keeps the invariant, for any primes and for those of the configuration: after a hardware reset the digest
state stands for some stream, its lanes mixed over the full blocks and its buffer the tail (10_state.md section 6). -/
def Obligations.EveryStepKeepsTheInvariant : Prop :=
  (∀ (P : Primes) (s t : State), AtRest P s → stepAt P s = .next t → AtRest P t) ∧
  ∀ s t : State, AtRest Config.primes s → step s = .next t → AtRest Config.primes t

/-- What the invariant gives (items I1, I5 and I6 of 10_state.md section 6): N is the stream's length mod 32, and TOTAL's,
it never reaches 32, and fewer than 32 bytes leave the lanes at their initial values. -/
def Obligations.InvariantBoundsTheBuffer : Prop :=
  ∀ (P : Primes) (S : Bytes) (s : State), Represents P S s →
    s.n = S.length % 32 ∧ s.n = s.total.toNat % 32 ∧ s.bufWf ∧
    (S.length < 32 → s.lanes = Lanes.init P ∧ s.lanes.v3 = 0)

/-- A run of whole packets (70_reset_and_hazards.md R156) executes the commands one at a time in the order of arrival, one
response each, and comes to a good end. -/
def Obligations.WholePacketsRunToAGoodEnd : Prop :=
  ∀ cmds : List Instr, (∀ i ∈ cmds, i.wf = true) →
    ∃ t : State, execAll cmds State.reset = .next t ∧ runBytes (cmds.flatMap encode) = t ∧
      t.responses.length = cmds.length ∧ GoodEnd t

/-- A run that ends inside a packet is stuck there, with the effect of the whole packets before it, and is no good end
(70_reset_and_hazards.md section 2). -/
def Obligations.RunEndingInsideAPacketIsStuck : Prop :=
  ∀ (cmds : List Instr) (i : Instr) (k : Nat), (∀ c ∈ cmds, c.wf = true) → i.wf = true → 0 < k →
    k < (encode i).length →
    ∃ t : State, execAll cmds State.reset = .next t ∧
      runBytes (cmds.flatMap encode ++ (encode i).take k) = { t with port := portBytes ((encode i).take k) } ∧
      step (runBytes (cmds.flatMap encode ++ (encode i).take k)) = .fault .packetIncomplete ∧
      ¬ GoodEnd (runBytes (cmds.flatMap encode ++ (encode i).take k))

/-- IllegalCommand is precise (60_exceptions.md section 1): the commands before the illegal byte have completed and responded,
and neither it nor what follows has an effect on the digest state. That the refused bytes stay in the port, where the spec
discards them, is the model's choice (log entry 4). -/
def Obligations.IllegalCommandIsPrecise : Prop :=
  ∀ (cmds : List Instr) (op : Byte) (junk : Bytes), (∀ c ∈ cmds, c.wf = true) → IllegalOpcode op →
    ∃ t : State, execAll cmds State.reset = .next t ∧ t.responses.length = cmds.length ∧
      runBytes (cmds.flatMap encode ++ op :: junk) = { t with fault := true, port := portBytes junk } ∧
      ¬ GoodEnd (runBytes (cmds.flatMap encode ++ op :: junk))

/-- Cores share nothing (60_exceptions.md R143): a step of one leaves every other as it was, and is its own step. -/
def Obligations.CoresShareNothing : Prop :=
  ∀ (pl pl' : Platform) (k : Nat), pl.stepCore k = some (.next pl') →
    (∃ s t : State, pl.cores[k]? = some s ∧ step s = .next t ∧ pl'.cores[k]? = some t) ∧
    ∀ j, j ≠ k → pl'.cores[j]? = pl.cores[j]?

/-- The primes are a parameter of the step (10_state.md section 7): `exec`, `step` and `State.reset` are the parametric ones
at `Config.primes`, and for any primes a step of a ready core with a whole packet at its port executes its command. -/
def Obligations.PrimesAreAParameterOfTheStep : Prop :=
  (∀ (i : Instr) (s : State), exec i s = execAt Config.primes i s) ∧
  (∀ s : State, step s = stepAt Config.primes s) ∧
  State.reset = State.resetAt Config.primes ∧
  (∀ (P : Primes) (s : State) (i : Instr) (rest : Bytes), Ready s → decode (arrived s.port) = .packet i rest →
    stepAt P s = execAt P i { s with port := portBytes rest ++ pending s.port })
end

