-- ==== Sys2Proof/Laws/Operands.lean ====
section
/-! SUPPORT. What the byte-order functions and slices are. -/

namespace Sys2Proof.Machine

theorem leNat_lt (b : Bytes) : leNat b < 2 ^ (8 * b.length) := by
  induction b with
  | nil => simp [leNat]
  | cons x xs ih =>
    have hx := x.isLt
    simp only [leNat, List.length_cons]
    rw [show 8 * (xs.length + 1) = 8 + 8 * xs.length by ring, pow_add]
    nlinarith

/-- Reading back the layout of a number gives the number, as far as its bytes reach. -/
theorem leNat_leBytes (n v : Nat) : leNat (leBytes n v) = v % 2 ^ (8 * n) := by
  induction n generalizing v with
  | zero => simp [leBytes, leNat, Nat.mod_one]
  | succ n ih =>
    simp only [leBytes, leNat, ih, BitVec.toNat_ofNat]
    rw [show 8 * (n + 1) = 8 + 8 * n by ring, pow_add, Nat.mod_mul]

@[simp] theorem leBytes_length (n v : Nat) : (leBytes n v).length = n := by
  induction n generalizing v with
  | zero => rfl
  | succ n ih => simp [leBytes, ih]

/-- Laying out the number a byte sequence spells gives the sequence. -/
theorem leBytes_leNat (b : Bytes) : leBytes b.length (leNat b) = b := by
  induction b with
  | nil => rfl
  | cons x xs ih =>
    have hx := x.isLt
    have hlow : BitVec.ofNat 8 (x.toNat + 2 ^ 8 * leNat xs) = x := by
      apply BitVec.eq_of_toNat_eq
      rw [BitVec.toNat_ofNat]
      omega
    have hhigh : (x.toNat + 2 ^ 8 * leNat xs) / 2 ^ 8 = leNat xs := by omega
    simp only [List.length_cons, leBytes, leNat, hlow, hhigh, ih]

/-- LE64 of eight bytes loses nothing (R83). -/
theorem le64_toNat (b : Bytes) (h : b.length = 8) : (le64 b).toNat = leNat b := by
  have := leNat_lt b
  rw [le64, BitVec.toNat_ofNat, Nat.mod_eq_of_lt]
  rw [h] at this
  simpa using this

/-- The LEN field read back from its eight bytes (R64). -/
theorem le64_leBytes (v : Nat) (h : v < 2 ^ 64) : (le64 (leBytes 8 v)).toNat = v := by
  rw [le64_toNat _ (leBytes_length 8 v), leNat_leBytes]
  exact Nat.mod_eq_of_lt h

theorem slice_length (b : Bytes) (i n : Nat) : (slice b i n).length = min n (b.length - i) := by
  simp [slice]

/-- A slice of a suffix is the slice further on. -/
theorem slice_drop (b : Bytes) (j i n : Nat) : slice (b.drop j) i n = slice b (j + i) n := by
  simp [slice, List.drop_drop]

/-- The slice of everything is the sequence. -/
@[simp] theorem slice_all (b : Bytes) : slice b 0 b.length = b := by simp [slice]

@[simp] theorem be64_length (h : Word) : (be64 h).length = 8 := rfl

end Sys2Proof.Machine
end

