-- ==== Sys2Proof/Laws/BlockMixer.lean ====
section
/-! SUPPORT. PROCESS, block by block from the front. -/

namespace Sys2Proof.Machine

@[simp] theorem processBlocks_zero (P : Primes) (s : Bytes) (v : Lanes) : processBlocks P s 0 v = v := rfl

/-- Mixing one block more at the end is mixing the first block and then the others. -/
theorem processBlocks_succ_front (P : Primes) (s : Bytes) (nb : Nat) (v : Lanes) :
    processBlocks P s (nb + 1) v = processBlocks P (s.drop 32) nb (mixBlock P v (slice s 0 32)) := by
  induction nb with
  | zero => rfl
  | succ nb ih =>
    rw [processBlocks, ih, processBlocks, slice_drop]
    congr 2
    ring

/-- Fewer than 32 bytes mix nothing (R92). -/
theorem process_of_short (P : Primes) (v : Lanes) (s : Bytes) (h : s.length < 32) : process P v s = v := by
  rw [process, Nat.div_eq_of_lt h, processBlocks_zero]

/-- PROCESS takes the first block and goes on with the rest (R92). -/
theorem process_of_long (P : Primes) (v : Lanes) (s : Bytes) (h : 32 ≤ s.length) :
    process P v s = process P (mixBlock P v (slice s 0 32)) (s.drop 32) := by
  have hdiv : s.length / 32 = (s.drop 32).length / 32 + 1 := by
    rw [List.length_drop]; omega
  rw [process, hdiv, processBlocks_succ_front, process]

end Sys2Proof.Machine
end

