-- ==== Sys2Proof/Laws/Decode.lean ====
section
/-! SUPPORT. The decoder's own small lemmas, one per opcode byte and one for the CL format. -/

namespace Sys2Proof

open Sys2Proof.Machine

@[simp] theorem wf_reset : Instr.reset.wf = true := rfl
@[simp] theorem wf_sum64 : Instr.sum64.wf = true := rfl
@[simp] theorem wf_sumbe : Instr.sumbe.wf = true := rfl

/-- The packet of WRITE needs a LEN of 64 bits (R64). -/
theorem wf_write {p : Bytes} : (Instr.write p).wf = true ↔ p.length < 2 ^ 64 := decide_eq_true_iff

/-- The packet of HASH needs a LEN of 64 bits (R64). -/
theorem wf_hash {p : Bytes} : (Instr.hash p).wf = true ↔ p.length < 2 ^ 64 := decide_eq_true_iff

@[simp] theorem decode_nil : decode [] = .empty := rfl
@[simp] theorem decode_reset (b : Bytes) : decode (1#8 :: b) = .packet .reset b := rfl
@[simp] theorem decode_write (b : Bytes) : decode (2#8 :: b) = decodeCL .write b := rfl
@[simp] theorem decode_sum64 (b : Bytes) : decode (3#8 :: b) = .packet .sum64 b := rfl
@[simp] theorem decode_sumbe (b : Bytes) : decode (4#8 :: b) = .packet .sumbe b := rfl
@[simp] theorem decode_hash (b : Bytes) : decode (5#8 :: b) = decodeCL .hash b := rfl

/-- Every opcode byte is one of the five or none of them (R62, R68). -/
theorem opcode_cases (op : Byte) :
    op = 1#8 ∨ op = 2#8 ∨ op = 3#8 ∨ op = 4#8 ∨ op = 5#8 ∨ ∀ b, decode (op :: b) = .illegal op b := by
  by_cases h1 : op = 1#8
  · exact .inl h1
  by_cases h2 : op = 2#8
  · exact .inr (.inl h2)
  by_cases h3 : op = 3#8
  · exact .inr (.inr (.inl h3))
  by_cases h4 : op = 4#8
  · exact .inr (.inr (.inr (.inl h4)))
  by_cases h5 : op = 5#8
  · exact .inr (.inr (.inr (.inr (.inl h5))))
  exact .inr (.inr (.inr (.inr (.inr fun b =>
    (if_neg h1).trans ((if_neg h2).trans ((if_neg h3).trans ((if_neg h4).trans (if_neg h5))))))))

/-- All that the rest of a CL packet can be: not yet there, or LEN and as many payload bytes. -/
theorem decodeCL_cases (command : Bytes → Instr) (b : Bytes) :
    decodeCL command b = .incomplete ∨
      ∃ p rest, p.length < 2 ^ 64 ∧ b = leBytes 8 p.length ++ (p ++ rest) ∧
        decodeCL command b = .packet (command p) rest := by
  unfold decodeCL
  split
  · exact .inl rfl
  · next h8 =>
    have h8' : (b.take 8).length = 8 := by simp; omega
    have hlen := le64_toNat _ h8'
    simp only
    split
    · exact .inl rfl
    · next hbody =>
      have hp : ((b.drop 8).take (le64 (b.take 8)).toNat).length = (le64 (b.take 8)).toNat := by
        rw [List.length_take]; omega
      refine .inr ⟨_, _, ?_, ?_, rfl⟩
      · rw [hp]; exact (le64 (b.take 8)).isLt
      · rw [hp, List.take_append_drop, hlen]
        have := leBytes_leNat (b.take 8)
        rw [h8'] at this
        rw [this, List.take_append_drop]

/-- `encode` has the length the format gives (R61). -/
theorem encode_length (i : Instr) : (encode i).length = i.packetBytes := by
  cases i <;> simp [encode, Instr.packetBytes] <;> omega

end Sys2Proof
end

