-- ==== Sys2Proof/Laws/State.lean ====
section
/-! SUPPORT. One lemma per field per update of State, true by `rfl`: no later proof unfolds a record update. -/

namespace Sys2Proof.Machine

variable (s : State)

@[simp] theorem memWrite_lanes (addr : Nat) (v : Bytes) : (s.memWrite addr v).lanes = s.lanes := rfl
@[simp] theorem memWrite_total (addr : Nat) (v : Bytes) : (s.memWrite addr v).total = s.total := rfl
@[simp] theorem memWrite_buf (addr : Nat) (v : Bytes) : (s.memWrite addr v).buf = s.buf.take addr ++ v := rfl
@[simp] theorem memWrite_fault (addr : Nat) (v : Bytes) : (s.memWrite addr v).fault = s.fault := rfl
@[simp] theorem memWrite_resetDone (addr : Nat) (v : Bytes) : (s.memWrite addr v).resetDone = s.resetDone := rfl
@[simp] theorem memWrite_port (addr : Nat) (v : Bytes) : (s.memWrite addr v).port = s.port := rfl
@[simp] theorem memWrite_responses (addr : Nat) (v : Bytes) : (s.memWrite addr v).responses = s.responses := rfl

@[simp] theorem clearN_lanes : (s.clearN).lanes = s.lanes := rfl
@[simp] theorem clearN_total : (s.clearN).total = s.total := rfl
@[simp] theorem clearN_buf : (s.clearN).buf = [] := rfl
@[simp] theorem clearN_fault : (s.clearN).fault = s.fault := rfl
@[simp] theorem clearN_resetDone : (s.clearN).resetDone = s.resetDone := rfl
@[simp] theorem clearN_port : (s.clearN).port = s.port := rfl
@[simp] theorem clearN_responses : (s.clearN).responses = s.responses := rfl

@[simp] theorem setLanes_lanes (v : Lanes) : (s.setLanes v).lanes = v := rfl
@[simp] theorem setLanes_total (v : Lanes) : (s.setLanes v).total = s.total := rfl
@[simp] theorem setLanes_buf (v : Lanes) : (s.setLanes v).buf = s.buf := rfl
@[simp] theorem setLanes_fault (v : Lanes) : (s.setLanes v).fault = s.fault := rfl
@[simp] theorem setLanes_resetDone (v : Lanes) : (s.setLanes v).resetDone = s.resetDone := rfl
@[simp] theorem setLanes_port (v : Lanes) : (s.setLanes v).port = s.port := rfl
@[simp] theorem setLanes_responses (v : Lanes) : (s.setLanes v).responses = s.responses := rfl

@[simp] theorem addTotal_lanes (L : Nat) : (s.addTotal L).lanes = s.lanes := rfl
@[simp] theorem addTotal_total (L : Nat) : (s.addTotal L).total = s.total + BitVec.ofNat 64 L := rfl
@[simp] theorem addTotal_buf (L : Nat) : (s.addTotal L).buf = s.buf := rfl
@[simp] theorem addTotal_fault (L : Nat) : (s.addTotal L).fault = s.fault := rfl
@[simp] theorem addTotal_resetDone (L : Nat) : (s.addTotal L).resetDone = s.resetDone := rfl
@[simp] theorem addTotal_port (L : Nat) : (s.addTotal L).port = s.port := rfl
@[simp] theorem addTotal_responses (L : Nat) : (s.addTotal L).responses = s.responses := rfl

@[simp] theorem clearTotal_lanes : (s.clearTotal).lanes = s.lanes := rfl
@[simp] theorem clearTotal_total : (s.clearTotal).total = 0 := rfl
@[simp] theorem clearTotal_buf : (s.clearTotal).buf = s.buf := rfl
@[simp] theorem clearTotal_fault : (s.clearTotal).fault = s.fault := rfl
@[simp] theorem clearTotal_resetDone : (s.clearTotal).resetDone = s.resetDone := rfl
@[simp] theorem clearTotal_port : (s.clearTotal).port = s.port := rfl
@[simp] theorem clearTotal_responses : (s.clearTotal).responses = s.responses := rfl

@[simp] theorem respond_lanes (r : Response) : (s.respond r).lanes = s.lanes := rfl
@[simp] theorem respond_total (r : Response) : (s.respond r).total = s.total := rfl
@[simp] theorem respond_buf (r : Response) : (s.respond r).buf = s.buf := rfl
@[simp] theorem respond_fault (r : Response) : (s.respond r).fault = s.fault := rfl
@[simp] theorem respond_resetDone (r : Response) : (s.respond r).resetDone = s.resetDone := rfl
@[simp] theorem respond_port (r : Response) : (s.respond r).port = s.port := rfl
@[simp] theorem respond_responses (r : Response) : (s.respond r).responses = s.responses ++ [r] := rfl

@[simp] theorem clearDigest_lanes (P : Primes) : (s.clearDigest P).lanes = Lanes.init P := rfl
@[simp] theorem clearDigest_total (P : Primes) : (s.clearDigest P).total = 0 := rfl
@[simp] theorem clearDigest_buf (P : Primes) : (s.clearDigest P).buf = [] := rfl
@[simp] theorem clearDigest_fault (P : Primes) : (s.clearDigest P).fault = s.fault := rfl
@[simp] theorem clearDigest_resetDone (P : Primes) : (s.clearDigest P).resetDone = s.resetDone := rfl
@[simp] theorem clearDigest_port (P : Primes) : (s.clearDigest P).port = s.port := rfl
@[simp] theorem clearDigest_responses (P : Primes) : (s.clearDigest P).responses = s.responses := rfl

@[simp] theorem raiseIllegalCommand_lanes (op : Byte) : (s.raiseIllegalCommand op).lanes = s.lanes := rfl
@[simp] theorem raiseIllegalCommand_total (op : Byte) : (s.raiseIllegalCommand op).total = s.total := rfl
@[simp] theorem raiseIllegalCommand_buf (op : Byte) : (s.raiseIllegalCommand op).buf = s.buf := rfl
@[simp] theorem raiseIllegalCommand_fault (op : Byte) : (s.raiseIllegalCommand op).fault = true := rfl
@[simp] theorem raiseIllegalCommand_resetDone (op : Byte) : (s.raiseIllegalCommand op).resetDone = s.resetDone := rfl
@[simp] theorem raiseIllegalCommand_port (op : Byte) : (s.raiseIllegalCommand op).port = s.port := rfl
@[simp] theorem raiseIllegalCommand_responses (op : Byte) : (s.raiseIllegalCommand op).responses = s.responses := rfl

@[simp] theorem hardwareReset_lanes (P : Primes) (rest : List PortEvent) : (s.hardwareReset P rest).lanes = Lanes.init P := rfl
@[simp] theorem hardwareReset_total (P : Primes) (rest : List PortEvent) : (s.hardwareReset P rest).total = 0 := rfl
@[simp] theorem hardwareReset_buf (P : Primes) (rest : List PortEvent) : (s.hardwareReset P rest).buf = [] := rfl
@[simp] theorem hardwareReset_fault (P : Primes) (rest : List PortEvent) : (s.hardwareReset P rest).fault = false := rfl
@[simp] theorem hardwareReset_resetDone (P : Primes) (rest : List PortEvent) : (s.hardwareReset P rest).resetDone = true := rfl
@[simp] theorem hardwareReset_port (P : Primes) (rest : List PortEvent) : (s.hardwareReset P rest).port = rest := rfl
@[simp] theorem hardwareReset_responses (P : Primes) (rest : List PortEvent) : (s.hardwareReset P rest).responses = s.responses := rfl

@[simp] theorem consumeTo_lanes (rest : Bytes) : (s.consumeTo rest).lanes = s.lanes := rfl
@[simp] theorem consumeTo_total (rest : Bytes) : (s.consumeTo rest).total = s.total := rfl
@[simp] theorem consumeTo_buf (rest : Bytes) : (s.consumeTo rest).buf = s.buf := rfl
@[simp] theorem consumeTo_fault (rest : Bytes) : (s.consumeTo rest).fault = s.fault := rfl
@[simp] theorem consumeTo_resetDone (rest : Bytes) : (s.consumeTo rest).resetDone = s.resetDone := rfl
@[simp] theorem consumeTo_port (rest : Bytes) : (s.consumeTo rest).port = portBytes rest ++ pending s.port := rfl
@[simp] theorem consumeTo_responses (rest : Bytes) : (s.consumeTo rest).responses = s.responses := rfl

@[simp] theorem setLanes_n (v : Lanes) : (s.setLanes v).n = s.n := rfl
@[simp] theorem addTotal_n (L : Nat) : (s.addTotal L).n = s.n := rfl
@[simp] theorem clearTotal_n : (s.clearTotal).n = s.n := rfl
@[simp] theorem respond_n (r : Response) : (s.respond r).n = s.n := rfl
@[simp] theorem raiseIllegalCommand_n (op : Byte) : (s.raiseIllegalCommand op).n = s.n := rfl
@[simp] theorem consumeTo_n (rest : Bytes) : (s.consumeTo rest).n = s.n := rfl
@[simp] theorem clearN_n : (s.clearN).n = 0 := rfl
@[simp] theorem clearDigest_n (P : Primes) : (s.clearDigest P).n = 0 := rfl
@[simp] theorem hardwareReset_n (P : Primes) (rest : List PortEvent) : (s.hardwareReset P rest).n = 0 := rfl

@[simp] theorem resetAt_lanes (P : Primes) : (State.resetAt P).lanes = Lanes.init P := rfl
@[simp] theorem resetAt_total (P : Primes) : (State.resetAt P).total = 0 := rfl
@[simp] theorem resetAt_buf (P : Primes) : (State.resetAt P).buf = [] := rfl
@[simp] theorem resetAt_fault (P : Primes) : (State.resetAt P).fault = false := rfl
@[simp] theorem resetAt_resetDone (P : Primes) : (State.resetAt P).resetDone = true := rfl
@[simp] theorem resetAt_port (P : Primes) : (State.resetAt P).port = [] := rfl
@[simp] theorem resetAt_responses (P : Primes) : (State.resetAt P).responses = [] := rfl

theorem n_eq_length : s.n = s.buf.length := rfl

/-- RESET's effect written out, for all primes. (At `Config.primes` cite this lemma: there a bare `rfl` may make the kernel
compute with the primes' values.) -/
theorem clearDigest_eq (P : Primes) : s.clearDigest P =
    { s with lanes := ⟨P.prime1 + P.prime2, P.prime2, 0, -P.prime1⟩, total := 0, buf := [] } := rfl

/-- Hardware reset's effect written out, for all primes. -/
theorem hardwareReset_eq (P : Primes) (rest : List PortEvent) : s.hardwareReset P rest =
    { lanes := ⟨P.prime1 + P.prime2, P.prime2, 0, -P.prime1⟩, total := 0, buf := [], fault := false,
      resetDone := true, port := rest, responses := s.responses } := rfl

/-- A write at N makes N the sum; a write at 0 makes it the length written (20_memory.md R51). -/
theorem memWrite_n (addr : Nat) (v : Bytes) (h : addr ≤ s.n) : (s.memWrite addr v).n = addr + v.length := by
  simp only [n_eq_length, memWrite_buf, List.length_append, List.length_take] at *
  omega

end Sys2Proof.Machine
end

