-- ==== Sys2Proof/Laws/Finalization.lean ====
section
/-! SUPPORT. Where the loops of finalization stop, and what a digest depends on. -/

namespace Sys2Proof.Machine

/-- The digest is FINALIZE of the lanes, TOTAL and the valid bytes of BUF (43_finalization.md R115). -/
theorem digest_eq (P : Primes) (s : State) : s.digest P = finalize P s.lanes s.total s.buf := by
  simp [State.digest, State.memRead, State.n]

/-- Tier (a) stops at once where fewer than 8 bytes remain. -/
theorem tail8Loop_stop (P : Primes) (tail : Bytes) (fuel i : Nat) (h : Word) (hs : tail.length - i < 8) :
    tail8Loop P tail fuel i h = (i, h) := by
  cases fuel with
  | zero => rfl
  | succ fuel => simp [tail8Loop, Nat.not_le.mpr hs]

/-- Tier (c) stops at once where no byte remains. -/
theorem tail1Loop_stop (P : Primes) (tail : Bytes) (fuel i : Nat) (h : Word) (hs : tail.length ≤ i) :
    tail1Loop P tail fuel i h = h := by
  cases fuel with
  | zero => rfl
  | succ fuel => simp [tail1Loop, List.getElem?_eq_none hs]

/-- With an empty tail no tail step runs. -/
theorem consumeTail_nil (P : Primes) (h : Word) : consumeTail P [] h = h := rfl

end Sys2Proof.Machine
end

