-- ==== Sys2Proof/Laws/PerInstr.lean ====
section
/-! SUPPORT. Statements about every command as syntax, one lemma per constructor. -/

namespace Sys2Proof.Laws.PacketShape

/-- A command's packet begins with its opcode byte and is 1 byte long in format C0, `9 + LEN` bytes in format CL
(30_encoding.md R61, R62). -/
def Statement (i : Instr) : Prop :=
  (encode i).head? = some i.opcode ∧ (encode i).length = i.packetBytes

theorem reset : Statement .reset := ⟨rfl, rfl⟩

theorem write (payload : Bytes) : Statement (.write payload) := ⟨rfl, encode_length _⟩

theorem sum64 : Statement .sum64 := ⟨rfl, rfl⟩

theorem sumbe : Statement .sumbe := ⟨rfl, rfl⟩

theorem hash (payload : Bytes) : Statement (.hash payload) := ⟨rfl, encode_length _⟩

end Sys2Proof.Laws.PacketShape
end

