-- ==== Sys2Proof/Laws/Port.lean ====
section
/-! SUPPORT. The command port: what has arrived and what is pending; and the two guards of a step. -/

namespace Sys2Proof.Machine

/-- The port is what has arrived before the next reset event, followed by what is pending. -/
theorem port_split (es : List PortEvent) : portBytes (arrived es) ++ pending es = es := by
  induction es with
  | nil => rfl
  | cons e es ih =>
    cases e with
    | byte b => simpa [arrived, pending, portBytes] using ih
    | hardwareReset => rfl

@[simp] theorem arrived_portBytes (b : Bytes) (es : List PortEvent) :
    arrived (portBytes b ++ es) = b ++ arrived es := by
  induction b with
  | nil => rfl
  | cons x xs ih => simpa [arrived, portBytes] using ih

@[simp] theorem pending_portBytes (b : Bytes) (es : List PortEvent) :
    pending (portBytes b ++ es) = pending es := by
  induction b with
  | nil => rfl
  | cons x xs ih => simpa [pending, portBytes] using ih

@[simp] theorem arrived_portBytes_only (b : Bytes) : arrived (portBytes b) = b := by
  simpa [arrived] using arrived_portBytes b []

@[simp] theorem pending_portBytes_only (b : Bytes) : pending (portBytes b) = [] := by
  simpa [pending] using pending_portBytes b []

@[simp] theorem arrived_reset (es : List PortEvent) : arrived (.hardwareReset :: es) = [] := rfl

@[simp] theorem pending_reset (es : List PortEvent) :
    pending (.hardwareReset :: es) = .hardwareReset :: es := rfl

@[simp] theorem portBytes_append (a b : Bytes) : portBytes (a ++ b) = portBytes a ++ portBytes b := by
  simp [portBytes]

@[simp] theorem portBytes_nil : portBytes [] = [] := rfl

/-- What is pending begins with a reset event, if there is anything. -/
theorem pending_cases (es : List PortEvent) :
    pending es = [] ∨ ∃ rest, pending es = .hardwareReset :: rest := by
  induction es with
  | nil => exact .inl rfl
  | cons e es ih =>
    cases e with
    | byte b => simpa [pending] using ih
    | hardwareReset => exact .inr ⟨es, rfl⟩

/-- Once a hardware reset has completed and with FAULT = 0 the guard lets the effect through. -/
theorem whenReady_of_ready {s : State} (hr : s.resetDone = true) (hf : s.fault = false)
    (e : Host.Outcome State Fault Refusal) : whenReady s e = e := by
  simp [whenReady, hr, hf]

/-- All the guard can do: it answers a next state only for a ready core, and then the effect's. -/
theorem whenReady_next {s t : State} {e : Host.Outcome State Fault Refusal} (h : whenReady s e = .next t) :
    s.resetDone = true ∧ s.fault = false ∧ e = .next t := by
  unfold whenReady at h
  split at h
  · split at h
    · cases h
    · exact ⟨‹_›, by simpa using ‹¬s.fault = true›, h⟩
  · cases h

/-- All that can happen where no command can execute: the pending reset event acts, or the named stop. -/
theorem awaitReset_cases (P : Primes) (s : State) (stuck : Host.Outcome State Fault Refusal) :
    (pending s.port = [] ∧ awaitReset P s stuck = stuck) ∨
      ∃ rest, pending s.port = .hardwareReset :: rest ∧ awaitReset P s stuck = .next (s.hardwareReset P rest) := by
  rcases pending_cases s.port with h | ⟨rest, h⟩
  · exact .inl ⟨h, by simp [awaitReset, h]⟩
  · exact .inr ⟨rest, h, by simp [awaitReset, h]⟩

end Sys2Proof.Machine
end

