-- ==== Sys2Proof/Laws/Streaming.lean ====
section
/-! SUPPORT. What the steps of WRITE leave alone, where its loop ends, and that the carry buffer is never left full. -/

namespace Sys2Proof.Machine

/-- The loop of step 3 is PROCESS on what remains of the payload (42_stream_commands.md R100). -/
theorem mixPayload_eq (P : Primes) (p : Bytes) (fuel i : Nat) (v : Lanes) (h : (p.length - i) / 32 ≤ fuel) :
    mixPayload P p fuel i v = (process P v (p.drop i), i + 32 * ((p.length - i) / 32)) := by
  induction fuel generalizing i v with
  | zero =>
    have hs : (p.drop i).length < 32 := by rw [List.length_drop]; omega
    rw [mixPayload, process_of_short P v _ hs]
    simp only [Prod.mk.injEq, true_and]
    omega
  | succ fuel ih =>
    rw [mixPayload]
    split
    · next hl =>
      rw [ih _ _ (by omega)]
      have hl' : 32 ≤ (p.drop i).length := by rw [List.length_drop]; omega
      rw [process_of_long P v _ hl', slice_drop, List.drop_drop]
      simp only [Nat.add_zero, Prod.mk.injEq, true_and]
      omega
    · next hl =>
      have hs : (p.drop i).length < 32 := by rw [List.length_drop]; omega
      rw [process_of_short P v _ hs]
      simp only [Prod.mk.injEq, true_and]
      omega

variable (P : Primes) (p : Bytes) (s : State)

@[simp] theorem topOff_total : (topOff P p s).1.total = s.total := by unfold topOff; split <;> rfl
@[simp] theorem topOff_fault : (topOff P p s).1.fault = s.fault := by unfold topOff; split <;> rfl
@[simp] theorem topOff_resetDone : (topOff P p s).1.resetDone = s.resetDone := by unfold topOff; split <;> rfl
@[simp] theorem topOff_port : (topOff P p s).1.port = s.port := by unfold topOff; split <;> rfl
@[simp] theorem topOff_responses : (topOff P p s).1.responses = s.responses := by unfold topOff; split <;> rfl

/-- Step 2 leaves the carry buffer empty. -/
@[simp] theorem topOff_buf : (topOff P p s).1.buf = [] := by
  unfold topOff
  split
  · rfl
  · next h =>
    have : s.buf.length = 0 := by simpa [State.n] using h
    simpa using this

@[simp] theorem writeDigest_fault : (writeDigest P p s).fault = s.fault := by
  unfold writeDigest writeBlocks; dsimp only; split <;> simp
@[simp] theorem writeDigest_resetDone : (writeDigest P p s).resetDone = s.resetDone := by
  unfold writeDigest writeBlocks; dsimp only; split <;> simp
@[simp] theorem writeDigest_port : (writeDigest P p s).port = s.port := by
  unfold writeDigest writeBlocks; dsimp only; split <;> simp
@[simp] theorem writeDigest_responses : (writeDigest P p s).responses = s.responses := by
  unfold writeDigest writeBlocks; dsimp only; split <;> simp
@[simp] theorem writeDigest_total : (writeDigest P p s).total = s.total + BitVec.ofNat 64 p.length := by
  unfold writeDigest writeBlocks; dsimp only; split <;> simp

/-- WRITE does not look at the port. -/
theorem writeDigest_withPort (es : List PortEvent) :
    writeDigest P p { s with port := es } = { writeDigest P p s with port := es } := by
  unfold writeDigest writeBlocks topOff
  by_cases hfit : s.n + p.length < 32
  · have hfit' : (State.addTotal { s with port := es } p.length).n + p.length < 32 := hfit
    have hfit'' : (s.addTotal p.length).n + p.length < 32 := hfit
    simp only [hfit', hfit'', if_true]
    rfl
  · have hfit' : ¬ (State.addTotal { s with port := es } p.length).n + p.length < 32 := hfit
    have hfit'' : ¬ (s.addTotal p.length).n + p.length < 32 := hfit
    simp only [hfit', hfit'', if_false]
    by_cases h0 : 0 < s.n
    · have h0' : 0 < (State.addTotal { s with port := es } p.length).n := h0
      have h0'' : 0 < (s.addTotal p.length).n := h0
      simp only [h0', h0'', if_true]
      rfl
    · have h0' : ¬ 0 < (State.addTotal { s with port := es } p.length).n := h0
      have h0'' : ¬ 0 < (s.addTotal p.length).n := h0
      simp only [h0', h0'', if_false]
      rfl

/-- Whatever N was, WRITE leaves at most 31 bytes in the carry buffer: the buffer's canonical form (10_state.md R28 I1). -/
theorem writeDigest_n_le : (writeDigest P p s).n ≤ 31 := by
  unfold writeDigest writeBlocks
  dsimp only
  split
  · next h =>
    rw [memWrite_n _ _ _ le_rfl]
    omega
  · have hdiv : (p.length - (topOff P p (s.addTotal p.length)).2) / 32 ≤ p.length / 32 :=
      Nat.div_le_div_right (Nat.sub_le _ _)
    rw [mixPayload_eq P p _ _ _ hdiv, memWrite_n _ _ _ (Nat.zero_le _), List.length_drop]
    omega

end Sys2Proof.Machine
end

