-- ==== Sys2Proof/Laws/Step.lean ====
section
/-! SUPPORT. Said once: everything a command and a step can do. -/

namespace Sys2Proof.Machine

/-- The state a command leaves on a ready core. -/
def effectOf (P : Primes) (s : State) : Instr → State
  | .reset => (s.clearDigest P).respond .unit
  | .write p => (writeDigest P p s).respond (.u64 (BitVec.ofNat 64 p.length))
  | .sum64 => s.respond (.u64 (s.digest P))
  | .sumbe => s.respond (.bytes8 (be64 (s.digest P)))
  | .hash p => (hashDigest P p s).respond (.u64 ((hashDigest P p s).digest P))

/-- Every command is its effect behind the same guard (42_stream_commands.md R95). -/
theorem execAt_eq (P : Primes) (i : Instr) (s : State) : execAt P i s = whenReady s (.next (effectOf P s i)) := by
  cases i <;> rfl

/-- `exec` is `execAt` with the primes of the configuration. -/
theorem exec_eq_execAt (i : Instr) (s : State) : exec i s = execAt Config.primes i s := by
  cases i <;> rfl

theorem exec_eq (i : Instr) (s : State) : exec i s = whenReady s (.next (effectOf Config.primes s i)) :=
  (exec_eq_execAt i s).trans (execAt_eq Config.primes i s)

/-- `step` is `stepAt` with the primes of the configuration. -/
theorem step_eq_stepAt (s : State) : step s = stepAt Config.primes s :=
  congrArg (fun run => stepBy Config.primes run s) (funext fun i => funext fun t => exec_eq_execAt i t)

/-- All a command can do: it answers a next state only on a ready core, and then its effect. -/
theorem execAt_next {P : Primes} {i : Instr} {s t : State} (h : execAt P i s = .next t) :
    s.resetDone = true ∧ s.fault = false ∧ t = effectOf P s i := by
  rw [execAt_eq] at h
  obtain ⟨hr, hf, he⟩ := whenReady_next h
  cases he
  exact ⟨hr, hf, rfl⟩

theorem exec_next {i : Instr} {s t : State} (h : exec i s = .next t) :
    s.resetDone = true ∧ s.fault = false ∧ t = effectOf Config.primes s i :=
  execAt_next ((exec_eq_execAt i s).symm.trans h)

/-- RESET's effect written out, for all primes (cite it at `Config.primes`, as `clearDigest_eq`). -/
theorem effectOf_reset (P : Primes) (s : State) : effectOf P s .reset =
    { s with
      lanes := ⟨P.prime1 + P.prime2, P.prime2, 0, -P.prime1⟩
      total := 0
      buf := []
      responses := s.responses ++ [.unit] } := rfl

theorem effectOf_fault (P : Primes) (s : State) (i : Instr) : (effectOf P s i).fault = s.fault := by
  cases i <;> simp [effectOf, hashDigest]

theorem effectOf_resetDone (P : Primes) (s : State) (i : Instr) :
    (effectOf P s i).resetDone = s.resetDone := by
  cases i <;> simp [effectOf, hashDigest]

theorem effectOf_port (P : Primes) (s : State) (i : Instr) : (effectOf P s i).port = s.port := by
  cases i <;> simp [effectOf, hashDigest]

/-- A command delivers one response, after those of earlier commands (30_encoding.md R70). -/
theorem effectOf_responses (P : Primes) (s : State) (i : Instr) :
    ∃ r, (effectOf P s i).responses = s.responses ++ [r] := by
  cases i with
  | reset => exact ⟨_, rfl⟩
  | write p => exact ⟨_, by simp only [effectOf, respond_responses, writeDigest_responses]; rfl⟩
  | sum64 => exact ⟨_, rfl⟩
  | sumbe => exact ⟨_, rfl⟩
  | hash p =>
    exact ⟨_, by simp only [effectOf, hashDigest, respond_responses, writeDigest_responses, clearDigest_responses]; rfl⟩

/-- A command does not look at the port. -/
theorem effectOf_withPort (P : Primes) (s : State) (i : Instr) (es : List PortEvent) :
    effectOf P { s with port := es } i = { effectOf P s i with port := es } := by
  cases i with
  | reset => rfl
  | write p => simp only [effectOf, writeDigest_withPort]; rfl
  | sum64 => rfl
  | sumbe => rfl
  | hash p =>
    have hw : hashDigest P p { s with port := es } = { hashDigest P p s with port := es } :=
      writeDigest_withPort P p (s.clearDigest P) es
    simp only [effectOf, hw]
    rfl

/-- All a step that answers a next state can have done: the pending reset event, a packet, or an illegal opcode byte. -/
theorem stepAt_cases {P : Primes} {s t : State} (h : stepAt P s = .next t) :
    (∃ rest, pending s.port = .hardwareReset :: rest ∧ t = s.hardwareReset P rest) ∨
    (s.resetDone = true ∧ s.fault = false ∧ ∃ i rest, decode (arrived s.port) = .packet i rest ∧
      t = effectOf P (s.consumeTo rest) i) ∨
    (s.resetDone = true ∧ s.fault = false ∧ ∃ op rest, decode (arrived s.port) = .illegal op rest ∧
      t = (s.consumeTo rest).raiseIllegalCommand op) := by
  have wait : ∀ {stuck : Host.Outcome State Fault Refusal}, (∀ u, stuck ≠ .next u) →
      awaitReset P s stuck = .next t →
      ∃ rest, pending s.port = .hardwareReset :: rest ∧ t = s.hardwareReset P rest := by
    intro stuck hstuck hw
    rcases awaitReset_cases P s stuck with ⟨_, he⟩ | ⟨rest, hp, he⟩
    · exact absurd (he.symm.trans hw) (hstuck t)
    · rw [he] at hw; cases hw; exact ⟨rest, hp, rfl⟩
  unfold stepAt stepBy at h
  split at h
  · next hr =>
    split at h
    · exact .inl (wait (by simp) h)
    · next hf =>
      have hf' : s.fault = false := by simpa using hf
      split at h
      · next i rest hd =>
        obtain ⟨_, _, he⟩ := execAt_next h
        exact .inr (.inl ⟨hr, hf', i, rest, hd, he⟩)
      · next op rest hd =>
        cases h
        exact .inr (.inr ⟨hr, hf', op, rest, hd, rfl⟩)
      · exact .inl (wait (by simp) h)
      · exact .inl (wait (by simp) h)
  · exact .inl (wait (by simp) h)

theorem step_cases {s t : State} (h : step s = .next t) :
    (∃ rest, pending s.port = .hardwareReset :: rest ∧ t = s.hardwareReset Config.primes rest) ∨
    (s.resetDone = true ∧ s.fault = false ∧ ∃ i rest, decode (arrived s.port) = .packet i rest ∧
      t = effectOf Config.primes (s.consumeTo rest) i) ∨
    (s.resetDone = true ∧ s.fault = false ∧ ∃ op rest, decode (arrived s.port) = .illegal op rest ∧
      t = (s.consumeTo rest).raiseIllegalCommand op) :=
  stepAt_cases ((step_eq_stepAt s).symm.trans h)

end Sys2Proof.Machine
end

