-- ==== Sys2Proof/Tests/Slice0.lean ====
section
/-! SUPPORT. The model's own tests. Expected values are the spec's: the packets of 30_encoding.md R62 and R74, and the
worked values of 95_test_vectors.md (T<n>) and of the rules; none is the model's own answer. The witnesses at the end meet
the hypotheses of the statements. -/

namespace Sys2Proof.Tests

open Sys2Proof Sys2Proof.Machine

/-! ### Well-formedness: the one check, LEN fits in 64 bits (R64) -/

theorem test_wf_refuses_write_of_2_64_bytes : (Instr.write (List.replicate (2 ^ 64) 0)).wf = false := by
  simp only [Instr.wf, Instr.len, Instr.payload, List.length_replicate, Nat.lt_irrefl, decide_false]

theorem test_wf_refuses_hash_of_2_64_bytes : (Instr.hash (List.replicate (2 ^ 64) 0)).wf = false := by
  simp only [Instr.wf, Instr.len, Instr.payload, List.length_replicate, Nat.lt_irrefl, decide_false]

theorem test_wf_accepts_empty_write : (Instr.write []).wf = true := by decide

/-! ### Decoding: packets written out from R62, R64 and R74 -/

theorem test_decode_reset : decode [0x01, 0x03] = .packet .reset [0x03] := by decide

theorem test_decode_write_abc :
    decode [0x02, 0x03, 0, 0, 0, 0, 0, 0, 0, 0x61, 0x62, 0x63] = .packet (.write [0x61, 0x62, 0x63]) [] := by decide

theorem test_decode_sum64 : decode [0x03] = .packet .sum64 [] := by decide

theorem test_decode_sumbe : decode [0x04] = .packet .sumbe [] := by decide

theorem test_decode_hash_a : decode [0x05, 0x01, 0, 0, 0, 0, 0, 0, 0, 0x61, 0x04] = .packet (.hash [0x61]) [0x04] := by
  decide

/-- P7: payload bytes that look like commands are data. -/
theorem test_decode_payload_is_data :
    decodeStream [0x02, 0x04, 0, 0, 0, 0, 0, 0, 0, 0x01, 0x03, 0x05, 0x00, 0x03]
      = ([.write [0x01, 0x03, 0x05, 0x00], .sum64], .boundary) := by decide

/-- The whole stream of P1. -/
theorem test_decode_stream_p1 :
    decodeStream [0x03, 0x04, 0x05, 0, 0, 0, 0, 0, 0, 0, 0, 0x02, 0, 0, 0, 0, 0, 0, 0, 0, 0x03]
      = ([.sum64, .sumbe, .hash [], .write [], .sum64], .boundary) := by decide

/-- The LEN field is little-endian: 256 is `00 01 00 ..` (R74). -/
theorem test_encode_len_256 : leBytes 8 256 = [0x00, 0x01, 0, 0, 0, 0, 0, 0] := by decide

theorem test_decode_illegal_00 : decode [0x00] = .illegal 0x00 [] := by decide

theorem test_decode_illegal_06 : decode [0x06, 0x01] = .illegal 0x06 [0x01] := by decide

/-- P8: a packet that lacks its last byte. -/
theorem test_decode_incomplete : decode [0x02, 0x04, 0, 0, 0, 0, 0, 0, 0, 0x61, 0x62, 0x63] = .incomplete := by decide

theorem test_table_words :
    [1, 2, 3, 4, 5, 0].map (decodeTableWord 8)
      = [some .reset, some (.write []), some .sum64, some .sumbe, some (.hash []), none] := by decide

/-- A table word with a LEN of 2 is padded with payload bytes of zero. -/
theorem test_table_word_with_len : decodeTableWord 72 0x0205 = some (.hash [0, 0]) := by decide

/-! ### Datapath primitives: T10 to T13 -/

theorem test_rotl_31 : rotl 0x0123456789ABCDEF 31 = 0xC4D5E6F78091A2B3 := by decide

theorem test_rotl_top_bit : rotl 0x8000000000000000 1 = 0x0000000000000001 := by decide

theorem test_round_0_1 : round Config.primes 0 1 = 0x7F0E345BE3649CD2 := by decide

theorem test_round_lane1 : round Config.primes 0x60EA27EEADC0B5D6 0x0706050403020100 = 0xF4B53B57406B5E99 := by decide

theorem test_merge_round : mergeRound Config.primes 0xFFFFFFFFFFFFFFFF 0xFFFFFFFFFFFFFFFF = 0x2755FD62D36C9DCB := by
  decide

theorem test_le32_zero_extends : le32 [0xFF, 0xFF, 0xFF, 0xFF] = 0x00000000FFFFFFFF := by decide

theorem test_zx8_times_prime5 : zx8 0x80 * Config.primes.prime5 = 0xEA75978B2B33E280 := by decide

theorem test_be64 : be64 0x0123456789ABCDEF = [0x01, 0x23, 0x45, 0x67, 0x89, 0xAB, 0xCD, 0xEF] := by decide

/-! ### Block mixer: T15 -/

/-- `seq(L)` of 95_test_vectors.md: byte `i` is `i mod 256`. -/
def seq (L : Nat) : Bytes := (List.range L).map (BitVec.ofNat 8)

theorem test_mixblock_seq32 :
    mixBlock Config.primes (Lanes.init Config.primes) (seq 32)
      = ⟨0xF4B53B57406B5E99, 0xC3D34B511FC32561, 0xCB26C007C8A1553F, 0x9A44D001A7F91C07⟩ := by decide

theorem test_process_seq64 :
    process Config.primes (Lanes.init Config.primes) (seq 64)
      = ⟨0xE4BE403C862996DA, 0x44721BC65752067C, 0xEFD8F7C01D96B1B0, 0x8C96EE066EBF2152⟩
      ∧ processConsumed (seq 64) = 64 := by decide

/-! ### Finalization: T19, T24 -/

theorem test_tail1 : tail1 Config.primes 0x27D4EB2F165667C6 0x00 = 0xA82DDB360290E3B2 := by decide

theorem test_tail4 : tail4 Config.primes 0x27D4EB2F165667C9 (seq 4) = 0x5E0201BEC1FBE454 := by decide

theorem test_tail8 : tail8 Config.primes 0x27D4EB2F165667CD (seq 8) = 0xDB788D454485FF74 := by decide

theorem test_avalanche : avalanche Config.primes 0x27D4EB2F165667C5 = 0xEF46DB3751D8E999 := by decide

theorem test_converge_zero_block :
    converge Config.primes ⟨0x119361E2963B6D41, 0x7F0E345BE3649CD2, 0x0000000000000000, 0x6D7AD2794D292F91⟩
      = 0xCBBFD1653BAACD51 := by decide

/-- T20: lengths that end in each tier. -/
theorem test_xxh64_seq :
    [0, 3, 7, 15, 31, 33].map (fun L => xxh64 Config.primes (seq L))
      = [0xEF46DB3751D8E999, 0xE5C7BB4533BC65DD, 0x14CC643F630C72D2, 0xA948F5F0F6ABAC2D, 0xC346D2B59B4D8EE1,
        0x0C535D1ACAFB8EAD] := by decide

/-- T21 and T23: the longest schedule after a block, and bytes with the top bit set. -/
theorem test_xxh64_long_and_high_bytes :
    xxh64 Config.primes (seq 63) = 0xE26AA9E2A95F8E4F ∧
      xxh64 Config.primes (List.replicate 31 0x80) = 0xD1DE043E305A2E46 ∧
      xxh64 Config.primes (List.replicate 33 0xFF) = 0xF4291792CF8FDB43 := by decide

/-! ### One step of each command -/

/-- A ready core with the given lanes, TOTAL and buffer, and `bytes` at its port. -/
def coreWith (lanes : Lanes) (total : Word) (buf bytes : Bytes) : State :=
  { State.reset with lanes := lanes, total := total, buf := buf, port := portBytes bytes }

/-- What can be seen of an outcome that is a next state: its lanes, TOTAL, BUF[0..N), FAULT and last response. -/
def seen (o : Host.Outcome State Fault Refusal) : Option (Lanes × Word × Bytes × Bool × Option Response) :=
  match o with
  | .next s => some (s.lanes, s.total, s.buf, s.fault, s.responses.getLast?)
  | .fault _ => none
  | .refused _ => none

/-- T18: RESET from the end state of T17. -/
theorem test_step_reset :
    seen (step (coreWith ⟨0xBB194C0EDD48BFC3, 0xAD52551F6147FFD4, 0x58B93119278CAB08, 0xB86D0CA2F8B51AAA⟩ 70
      [0xC0, 0xC1, 0xC2, 0xC3, 0xC4, 0xC5] [0x01]))
      = some (⟨0x60EA27EEADC0B5D6, 0xC2B2AE3D27D4EB4F, 0x0000000000000000, 0x61C8864E7A143579⟩, 0, [], false,
        some .unit) := by decide

/-- T16, row (31, 32): one byte tops off, no payload block, 31 bytes kept. -/
theorem test_step_write_tops_off :
    seen (step (coreWith (Lanes.init Config.primes) 31 (seq 31) (encode (.write ((seq 63).drop 31)))))
      = some (⟨0xF4B53B57406B5E99, 0xC3D34B511FC32561, 0xCB26C007C8A1553F, 0x9A44D001A7F91C07⟩, 63,
        (seq 63).drop 32, false, some (.u64 32)) := by decide

/-- T16, row (5, 100): all four steps. -/
theorem test_step_write_all_steps :
    seen (step (coreWith (Lanes.init Config.primes) 5 (seq 5) (encode (.write ((seq 105).drop 5)))))
      = some (⟨0x4D87261020D8B1D4, 0xF6A48A6C81681DEE, 0xD18838B7423E5790, 0x2B1E854BD2CDFC3C⟩, 105,
        [0x60, 0x61, 0x62, 0x63, 0x64, 0x65, 0x66, 0x67, 0x68], false, some (.u64 100)) := by decide

/-- P2, command 3: the digest of "abc", and no state changes. -/
theorem test_step_sum64_abc :
    seen (step (coreWith (Lanes.init Config.primes) 3 [0x61, 0x62, 0x63] [0x03]))
      = some (Lanes.init Config.primes, 3, [0x61, 0x62, 0x63], false, some (.u64 0x44BC2CF5AD770999)) := by decide

/-- P2, command 7. -/
theorem test_step_sumbe_abcd :
    seen (step (coreWith (Lanes.init Config.primes) 4 [0x61, 0x62, 0x63, 0x64] [0x04]))
      = some (Lanes.init Config.primes, 4, [0x61, 0x62, 0x63, 0x64], false,
        some (.bytes8 [0xDE, 0x03, 0x27, 0xB0, 0xD2, 0x5D, 0x92, 0xCC])) := by decide

/-- P3, command 7, from a state of another stream. -/
theorem test_step_hash_seq33 :
    seen (step (coreWith (Lanes.init Config.primes) 3 [0x61, 0x62, 0x63] (encode (.hash (seq 33)))))
      = some (⟨0xF4B53B57406B5E99, 0xC3D34B511FC32561, 0xCB26C007C8A1553F, 0x9A44D001A7F91C07⟩, 33, [0x20], false,
        some (.u64 0x0C535D1ACAFB8EAD)) := by decide

/-- P6, command 3: byte 00 sets FAULT and changes nothing else. -/
theorem test_step_illegal :
    seen (step (coreWith (Lanes.init Config.primes) 1 [0x61] [0x00, 0x03]))
      = some (Lanes.init Config.primes, 1, [0x61], true, none) := by decide

/-- P6, command 5: RESET is refused while FAULT = 1. -/
theorem test_step_faulted :
    step { coreWith (Lanes.init Config.primes) 1 [0x61] [0x01] with fault := true } = .refused .faulted := by rfl

/-- P6: only hardware reset recovers; the byte before it is dropped. -/
theorem test_step_hardware_reset :
    seen (step { coreWith (Lanes.init Config.primes) 1 [0x61] [] with
      fault := true, port := [.byte 0x03, .hardwareReset, .byte 0x03] })
      = some (Lanes.init Config.primes, 0, [], false, none) := by decide

theorem test_step_before_reset :
    step { coreWith (Lanes.init Config.primes) 0 [] [0x01] with resetDone := false } = .refused .beforeHardwareReset := by
  rfl

/-- From State.reset with nothing sent the core has nothing to execute (log entry 10). -/
theorem test_step_reset_state_waits : step State.reset = .fault .awaitingPacket := by rfl

/-- A table word placed by `withFetchWord` is what the next step executes. -/
theorem test_fetch_word_runs :
    seen (step (State.reset.withFetchWord 8 3))
      = some (Lanes.init Config.primes, 0, [], false, some (.u64 0xEF46DB3751D8E999)) := by decide

/-! ### Schedules and assembler -/

/-- The table of 43_finalization.md R112, row N = 31. -/
theorem test_tail_schedule_31 :
    tailSchedule 31 = [.tail8 0, .tail8 8, .tail8 16, .tail4 24, .tail1 28, .tail1 29, .tail1 30] := by decide

/-- T16, row (5, 100): step 2 with 27 bytes, two payload blocks, step 4. -/
theorem test_write_schedule_5_100 :
    writeSchedule 5 100 = [.addTotal, .topOff 27, .drain, .mixPayload 27, .mixPayload 59, .keep 91] := by decide

theorem test_assemble_lines :
    ["RESET", "WRITE \"abc\" ; a comment", "-> U64 3", "WRITEN 2, hex:0102fF", "NOPW"].map (fun l => parseLine l.toList)
      = [some (.command .reset), some (.command (.write [0x61, 0x62, 0x63])), some (.expected ['U', '6', '4', ' ', '3']),
        some (.writen 2 [0x01, 0x02, 0xFF]), some .nopw] := by decide

/-- P9 in small: ten bytes in pieces of four. -/
theorem test_writen_chunks : chunks 4 (seq 10) = [[0, 1, 2, 3], [4, 5, 6, 7], [8, 9]] := by decide

/-! ### Witnesses: states and operands that meet the hypotheses of the statements -/

theorem ready_reset : Ready State.reset := ⟨rfl, rfl⟩

theorem witness_PacketExamplesOfTheSpec : ∃ d : Bytes, d.length = 256 := ⟨seq 256, by simp [seq]⟩

theorem witness_DecodeOfEncodeIsTheCommand : ∃ i : Instr, i.payload ≠ [] ∧ i.wf = true := ⟨.write [7], by decide, by decide⟩

theorem witness_DecodedBytesAreThePacket : ∃ (b rest : Bytes) (i : Instr), decode b = .packet i rest :=
  ⟨[0x05, 0x01, 0, 0, 0, 0, 0, 0, 0, 0x61, 0x04], [0x04], .hash [0x61], by decide⟩

/-- Both ends of the range of `k`. -/
theorem witness_IncompletePacketWaits :
    ∃ (i : Instr) (s : State), i.wf = true ∧ Ready s ∧ 0 < 1 ∧ 1 < (encode i).length ∧ 0 < 9 ∧ 9 < (encode i).length :=
  ⟨.write [7], State.reset, by decide, ready_reset, by decide, by decide, by decide, by decide⟩

theorem witness_StreamDecodesToItsCommands :
    ∃ (cmds : List Instr) (op : Byte), (∀ i ∈ cmds, i.wf = true) ∧ cmds ≠ [] ∧ IllegalOpcode op :=
  ⟨[.write [1], .sum64], 0x06, by decide, by decide, by decide⟩

theorem witness_PseudoCommandsExpand : ∃ k : Nat, 1 ≤ k := ⟨1, le_rfl⟩

theorem witness_RotlMovesEachBit : ∃ r i : Nat, 0 < r ∧ r < 64 ∧ i < 64 ∧ 64 ≤ i + r := ⟨1, 63, by decide⟩

theorem witness_RoundIsABijection :
    Config.primes.prime1.getLsbD 0 = true ∧ Config.primes.prime2.getLsbD 0 = true := by decide

theorem witness_AvalancheIsABijection :
    Config.primes.prime2.getLsbD 0 = true ∧ Config.primes.prime3.getLsbD 0 = true := by decide

theorem witness_Le64ReadsLittleEndian :
    ∃ a b : Bytes, a.length = 8 ∧ b.length = 8 ∧ le64 a = le64 b := ⟨seq 8, seq 8, by decide⟩

theorem witness_NarrowOperandsAreZeroExtended : ∃ (b : Bytes) (k : Nat), b.length = 4 ∧ 32 ≤ k := ⟨seq 4, 32, by decide⟩

theorem witness_Be64IsBigEndian : ∃ j : Nat, j < 8 := ⟨7, by decide⟩

/-- Two different blocks that agree in one word, for each word. -/
theorem witness_EachWordMixesItsOwnLane :
    ∃ (v w : Lanes) (a b : Bytes), v = w ∧ a ≠ b ∧ a.length = 32 ∧ b.length = 32 ∧ slice a 0 8 = slice b 0 8 ∧
      slice a 8 8 = slice b 8 8 ∧ slice a 16 8 = slice b 16 8 ∧ slice a 24 8 ≠ slice b 24 8 :=
  ⟨⟨1, 2, 3, 4⟩, ⟨1, 2, 3, 4⟩, seq 32, seq 24 ++ seq 8, by decide⟩

theorem witness_EachWordMixesItsOwnLane_last :
    ∃ (v w : Lanes) (a b : Bytes), v.v4 = w.v4 ∧ a ≠ b ∧ a.length = 32 ∧ b.length = 32 ∧ slice a 24 8 = slice b 24 8 :=
  ⟨⟨1, 2, 3, 4⟩, ⟨5, 6, 7, 4⟩, seq 32, List.replicate 24 0 ++ (seq 32).drop 24, by decide⟩

theorem witness_ProcessMixesFullBlocksInOrder :
    ∃ (blocks : List Bytes) (tail : Bytes), blocks ≠ [] ∧ (∀ blk ∈ blocks, blk.length = 32) ∧ tail.length < 32 :=
  ⟨[seq 32, seq 32], seq 31, by decide⟩

theorem witness_ProcessOfConcatenation : ∃ a : Bytes, a ≠ [] ∧ a.length % 32 = 0 := ⟨seq 32, by decide⟩

/-- A core with `n` bytes in its buffer. -/
def coreHolding (n : Nat) : State := coreWith (Lanes.init Config.primes) (BitVec.ofNat 64 n) (seq n) []

theorem coreHolding_ready (n : Nat) : Ready (coreHolding n) := ⟨rfl, rfl⟩

theorem witness_ResetSeedsTheState : ∃ s t u : State,
    Ready s ∧ exec .reset s = .next t ∧ exec .reset t = .next u :=
  ⟨coreHolding 3, _, _, coreHolding_ready 3, rfl, rfl⟩

theorem witness_ResetSeedsTheState_faulted : ∃ s : State, s.resetDone = true ∧ s.fault = true :=
  ⟨{ State.reset with fault := true }, rfl, rfl⟩

/-- The largest sum that fits. -/
theorem witness_WriteBuffersWhatFits : ∃ (p : Bytes) (s : State), Ready s ∧ s.n + p.length = 31 :=
  ⟨seq 11, coreHolding 20, coreHolding_ready 20, by decide⟩

/-- The fullest buffer, one byte. -/
theorem witness_WriteMixesEveryFullBlock_topOff :
    ∃ (p : Bytes) (s : State), Ready s ∧ s.n ≤ 31 ∧ 32 ≤ s.n + p.length ∧ 0 < s.n :=
  ⟨seq 1, coreHolding 31, coreHolding_ready 31, by decide⟩

/-- The empty buffer, one block. -/
theorem witness_WriteMixesEveryFullBlock_empty :
    ∃ (p : Bytes) (s : State), Ready s ∧ s.n ≤ 31 ∧ 32 ≤ s.n + p.length ∧ s.n = 0 :=
  ⟨seq 32, coreHolding 0, coreHolding_ready 0, by decide⟩

/-- A byte of BUF that step 1 leaves alone. -/
theorem witness_WriteFrame_fits : ∃ (p : Bytes) (s t : State) (a : Nat),
    s.n ≤ 31 ∧ exec (.write p) s = .next t ∧ s.n + p.length < 32 ∧ a < s.n :=
  ⟨seq 11, coreHolding 20, _, 19, by decide, rfl, by decide, by decide⟩

theorem witness_WriteFrame_blocks : ∃ (p : Bytes) (s t : State) (a : Nat),
    s.n ≤ 31 ∧ exec (.write p) s = .next t ∧ 32 ≤ s.n + p.length ∧ a < t.n :=
  ⟨seq 32, coreHolding 31, _, 30, by decide, rfl, by decide, by decide⟩

theorem witness_EmptyWriteIsANoOp : ∃ s : State, Ready s ∧ s.n = 31 := ⟨coreHolding 31, coreHolding_ready 31, by decide⟩

theorem witness_ChunkingDoesNotMatter : ∃ s : State, Ready s ∧ 0 < s.n ∧ s.n ≤ 31 :=
  ⟨coreHolding 31, coreHolding_ready 31, by decide⟩

theorem witness_WriteAppendsToTheStream :
    ∃ (S : Bytes) (s : State), S ≠ [] ∧ Ready s ∧ Represents Config.primes S s :=
  ⟨seq 3, coreHolding 3, by decide, coreHolding_ready 3, ⟨rfl, rfl, rfl⟩⟩

theorem witness_Sum64RespondsTheDigest : ∃ s : State, Ready s ∧ 0 < s.n := ⟨coreHolding 3, coreHolding_ready 3, by decide⟩

theorem witness_SumbeRespondsBigEndianBytes : ∃ s : State, Ready s ∧ 0 < s.n :=
  ⟨coreHolding 4, coreHolding_ready 4, by decide⟩

theorem witness_ShortPathReadsOnlyV3 :
    ∃ (v w : Lanes) (total : Word), v ≠ w ∧ total < 32#64 ∧ v.v3 = w.v3 :=
  ⟨⟨1, 2, 3, 4⟩, ⟨5, 6, 3, 7⟩, 31, by decide⟩

theorem witness_StreamingEqualsOneShot :
    ∃ (cmds : List Instr) (s : State), Ready s ∧ (∀ i ∈ cmds, StreamCommand i) ∧
      0 < (cmds.flatMap Instr.payload).length ∧ (cmds.flatMap Instr.payload).length < 2 ^ 64 :=
  ⟨[.write [1], .sum64, .sumbe, .write [2, 3]], coreHolding 3, coreHolding_ready 3, by simp [StreamCommand], by decide,
    by decide⟩

theorem witness_HashIsResetWriteFinalize : ∃ s : State, Ready s ∧ 0 < s.n := ⟨coreHolding 5, coreHolding_ready 5, by decide⟩

theorem witness_HashDependsOnItsPayloadAlone : ∃ s : State, Ready s ∧ 0 < s.n :=
  ⟨coreHolding 6, coreHolding_ready 6, by decide⟩

theorem witness_CommandsNeverFail : ∃ s : State, Ready s := ⟨State.reset, ready_reset⟩

theorem witness_EachCommandRespondsOnce : ∃ s : State, Ready s := ⟨coreHolding 31, coreHolding_ready 31⟩

theorem witness_EachCommandRespondsOnce_refused : ∃ s : State, ¬ Ready s :=
  ⟨{ State.reset with fault := true }, fun h => by simp [Ready] at h⟩

theorem witness_CommandsRunTheirSchedule : ∃ s : State, Ready s ∧ s.n = 31 := ⟨coreHolding 31, coreHolding_ready 31, by decide⟩

/-- Two commands with different payloads of one length. -/
theorem witness_CommandsRunTheirSchedule_len : ∃ i j : Instr, i ≠ j ∧ i.opcode = j.opcode ∧ i.len = j.len :=
  ⟨.hash [1], .hash [2], by decide⟩

theorem witness_MicroOperationCounts : ∃ n : Nat, n ≤ 31 := ⟨31, le_rfl⟩

theorem witness_StepExecutesThePacket :
    ∃ (s : State) (i : Instr) (rest : Bytes), Ready s ∧ decode (arrived s.port) = .packet i rest :=
  ⟨coreWith (Lanes.init Config.primes) 0 [] [0x03, 0x04], .sum64, [0x04], ⟨rfl, rfl⟩, by decide⟩

/-- Illegal opcode bytes at both ends of both ranges, at a ready core's port. -/
theorem witness_IllegalOpcodeIsTheOnlyException :
    ∃ s : State, Ready s ∧ arrived s.port = [0x06] ∧ IllegalOpcode 0x00 ∧ IllegalOpcode 0x06 ∧ IllegalOpcode 0xFF ∧
      ¬ IllegalOpcode 0x01 ∧ ¬ IllegalOpcode 0x05 :=
  ⟨coreWith (Lanes.init Config.primes) 0 [] [0x06], ⟨rfl, rfl⟩, by decide⟩

theorem witness_IllegalOpcodeIsTheOnlyException_converse :
    ∃ s t : State, Ready s ∧ step s = .next t ∧ t.fault = true :=
  ⟨coreWith (Lanes.init Config.primes) 0 [] [0xFF], _, ⟨rfl, rfl⟩, rfl, rfl⟩

theorem witness_FaultedCoreExecutesNothing :
    ∃ s : State, s.resetDone = true ∧ s.fault = true ∧ pending s.port = [] ∧ s.port ≠ [] :=
  ⟨{ coreWith (Lanes.init Config.primes) 0 [] [0x01] with fault := true }, rfl, rfl, rfl, by decide⟩

theorem witness_FaultedCoreExecutesNothing_reset :
    ∃ s t : State, s.resetDone = true ∧ s.fault = true ∧ step s = .next t :=
  ⟨{ State.reset with fault := true, port := [.byte 0x01, .hardwareReset] }, _, rfl, rfl, rfl⟩

theorem witness_ChecksAreMadeInOrder_legal :
    ∃ (s t : State) (op : Byte), s.port = portBytes [op] ∧ Ready s ∧ ¬ IllegalOpcode op ∧ step s = .next t :=
  ⟨coreWith (Lanes.init Config.primes) 0 [] [0x03], _, 0x03, rfl, ⟨rfl, rfl⟩, by decide, rfl⟩

theorem witness_ChecksAreMadeInOrder :
    ∃ (s u v : State) (op : Byte), s.port = portBytes [op] ∧ s.resetDone = false ∧
      u.port = portBytes [op] ∧ u.resetDone = true ∧ u.fault = true ∧
      v.port = portBytes [op] ∧ v.resetDone = true ∧ v.fault = false ∧ IllegalOpcode op :=
  ⟨{ coreWith (Lanes.init Config.primes) 0 [] [0x00] with resetDone := false },
    { coreWith (Lanes.init Config.primes) 0 [] [0x00] with fault := true },
    coreWith (Lanes.init Config.primes) 0 [] [0x00], 0x00, rfl, rfl, rfl, rfl, rfl, rfl, rfl, rfl, by decide⟩

/-- In the middle of a packet; the other alternatives need no more than a state with that field. -/
theorem witness_HardwareResetFromAnyState :
    ∃ (s : State) (b : Bytes) (rest : List PortEvent), s.port = portBytes b ++ .hardwareReset :: rest ∧
      Ready s ∧ decode b = .incomplete :=
  ⟨{ State.reset with port := portBytes [0x02, 0x04] ++ [.hardwareReset, .byte 0x03] }, [0x02, 0x04], [.byte 0x03], rfl,
    ⟨rfl, rfl⟩, by decide⟩

theorem witness_EveryStepKeepsTheInvariant : ∃ s t : State, AtRest Config.primes s ∧ step s = .next t :=
  ⟨{ State.reset with port := portBytes [0x03] }, _, fun _ => ⟨[], rfl, rfl, rfl⟩, rfl⟩

/-- Primes that are not the configuration's. -/
theorem witness_EveryStepKeepsTheInvariant_at :
    ∃ (P : Primes) (s t : State), P ≠ Config.primes ∧ AtRest P s ∧ stepAt P s = .next t :=
  ⟨⟨1, 2, 3, 4, 5⟩, { State.resetAt ⟨1, 2, 3, 4, 5⟩ with port := portBytes [0x03] }, _, by decide,
    fun _ => ⟨[], rfl, rfl, rfl⟩, rfl⟩

/-- A stream at the bound of the last clause. -/
theorem witness_InvariantBoundsTheBuffer :
    ∃ (S : Bytes) (s : State), Represents Config.primes S s ∧ S.length = 31 :=
  ⟨seq 31, coreHolding 31, ⟨rfl, rfl, rfl⟩, by decide⟩

theorem witness_WholePacketsRunToAGoodEnd : ∃ cmds : List Instr, cmds ≠ [] ∧ ∀ i ∈ cmds, i.wf = true :=
  ⟨[.reset, .write [1], .sum64, .sumbe, .hash [2]], by decide⟩

theorem witness_RunEndingInsideAPacketIsStuck :
    ∃ (cmds : List Instr) (i : Instr) (k : Nat), (∀ c ∈ cmds, c.wf = true) ∧ i.wf = true ∧ 0 < k ∧ k < (encode i).length :=
  ⟨[.write [1]], .write [2, 3], 10, by decide⟩

theorem witness_IllegalCommandIsPrecise :
    ∃ (cmds : List Instr) (op : Byte), (∀ c ∈ cmds, c.wf = true) ∧ IllegalOpcode op := ⟨[.reset, .write [1]], 0x00, by decide⟩

theorem witness_CoresShareNothing :
    ∃ (pl pl' : Platform) (k j : Nat), pl.stepCore k = some (.next pl') ∧ j ≠ k ∧ pl.cores[j]?.isSome = true :=
  ⟨⟨[State.reset, { State.reset with port := portBytes [0x03] }]⟩, _, 1, 0, rfl, by decide, rfl⟩

theorem witness_PrimesAreAParameterOfTheStep :
    ∃ (P : Primes) (s : State) (i : Instr) (rest : Bytes), P ≠ Config.primes ∧ Ready s ∧
      decode (arrived s.port) = .packet i rest :=
  ⟨⟨1, 2, 3, 4, 5⟩, coreWith (Lanes.init ⟨1, 2, 3, 4, 5⟩) 0 [] [0x03], .sum64, [], by decide, ⟨rfl, rfl⟩, by decide⟩

end Sys2Proof.Tests
end

section
/-! SUPPORT. What the decoder finds in a command's packet: all of it, and every proper beginning (30_encoding.md R64 to
R67). -/

namespace Sys2Proof

open Sys2Proof.Machine

/-- LEN and that many payload bytes are read back as the payload; what follows is left over (R64 to R66). -/
theorem decodeCL_leBytes_append (command : Bytes → Instr) {p : Bytes} (hp : p.length < 2 ^ 64) (rest : Bytes) :
    decodeCL command (leBytes 8 p.length ++ (p ++ rest)) = .packet (command p) rest := by
  have hhead : (leBytes 8 p.length ++ (p ++ rest)).take 8 = leBytes 8 p.length := List.take_left' (leBytes_length ..)
  have hbody : (leBytes 8 p.length ++ (p ++ rest)).drop 8 = p ++ rest := List.drop_left' (leBytes_length ..)
  simp [decodeCL, hhead, hbody, le64_leBytes _ hp]

/-- Any proper beginning of LEN and the payload is incomplete: either the LEN field itself is short, or it stands whole
and asks for more bytes than have arrived (R67). -/
theorem decodeCL_take_incomplete (command : Bytes → Instr) {p : Bytes} (hp : p.length < 2 ^ 64) {k : Nat}
    (hk : k < 8 + p.length) : decodeCL command ((leBytes 8 p.length ++ p).take k) = .incomplete := by
  by_cases h8 : k < 8
  · exact if_pos (by simp [h8])
  · have hsplit : (leBytes 8 p.length ++ p).take k = leBytes 8 p.length ++ p.take (k - 8) := by
      rw [List.take_append, leBytes_length, List.take_of_length_le (by simp; omega)]
    have hhead : (leBytes 8 p.length ++ p.take (k - 8)).take 8 = leBytes 8 p.length :=
      List.take_left' (leBytes_length ..)
    have hshort : (p.take (k - 8)).length < p.length := by rw [List.length_take]; omega
    have hbody : ((leBytes 8 p.length ++ p.take (k - 8)).drop 8).length < p.length := by
      rwa [List.drop_left' (leBytes_length ..)]
    have hlong : ¬ (leBytes 8 p.length ++ p.take (k - 8)).length < 8 := by simp
    rw [hsplit, decodeCL, if_neg hlong, hhead, le64_leBytes _ hp]
    exact if_pos hbody

/-- The packet of a well-formed command decodes to the command, with the bytes after it left over (R66). -/
theorem decode_encode_append {i : Instr} (hi : i.wf = true) (rest : Bytes) :
    decode (encode i ++ rest) = .packet i rest := by
  cases i with
  | reset => rfl
  | write p => simpa [encode] using decodeCL_leBytes_append .write (wf_write.mp hi) rest
  | sum64 => rfl
  | sumbe => rfl
  | hash p => simpa [encode] using decodeCL_leBytes_append .hash (wf_hash.mp hi) rest

theorem decode_encode {i : Instr} (hi : i.wf = true) : decode (encode i) = .packet i [] := by
  simpa using decode_encode_append hi []

/-- A packet of which the first byte but not the last has arrived is incomplete (R67). In format C0 the first byte is the
last. -/
theorem decode_take_encode {i : Instr} (hi : i.wf = true) {k : Nat} (h0 : 0 < k) (hk : k < (encode i).length) :
    decode ((encode i).take k) = .incomplete := by
  obtain ⟨m, rfl⟩ : ∃ m, k = m + 1 := ⟨k - 1, by omega⟩
  rw [encode_length] at hk
  cases i with
  | write p => exact decodeCL_take_incomplete .write (wf_write.mp hi) (by simp only [Instr.packetBytes] at hk; omega)
  | hash p => exact decodeCL_take_incomplete .hash (wf_hash.mp hi) (by simp only [Instr.packetBytes] at hk; omega)
  | reset | sum64 | sumbe => simp [Instr.packetBytes] at hk

/-- A packet written out by hand, in both directions: it is enough to check the encoder's. -/
theorem encode_and_decode_of_encode_eq {i : Instr} {packet : Bytes} (hi : i.wf = true) (he : encode i = packet) :
    encode i = packet ∧ decode packet = .packet i [] :=
  ⟨he, he ▸ decode_encode hi⟩

end Sys2Proof
end

section
/-! SUPPORT. What a ready core does with what the decoder finds at its port, and with a command (60_exceptions.md R136). -/

namespace Sys2Proof.Machine

/-- A ready core consumes the packet at its port and executes its command (R66, R156). -/
theorem step_of_packet {s : State} {i : Instr} {rest : Bytes} (hs : Ready s)
    (hd : decode (arrived s.port) = .packet i rest) : step s = exec i (s.consumeTo rest) := by
  obtain ⟨hr, hf⟩ := hs
  simp [step, stepBy, hr, hf, hd]

/-- A ready core with part of a packet at its port, and no reset pending, is stuck (R67). -/
theorem step_of_incomplete {s : State} (hs : Ready s) (hd : decode (arrived s.port) = .incomplete)
    (hp : pending s.port = []) : step s = .fault .packetIncomplete := by
  obtain ⟨hr, hf⟩ := hs
  simp [step, stepBy, hr, hf, hd, awaitReset, hp]

/-- On a ready core every command completes, with its effect (R95). -/
theorem exec_of_ready {s : State} (hs : Ready s) (i : Instr) : exec i s = .next (effectOf Config.primes s i) :=
  (exec_eq i s).trans (whenReady_of_ready hs.1 hs.2 _)

/-- Only a ready core completes a command (R132, R151). -/
theorem ready_of_exec_next {i : Instr} {s t : State} (h : exec i s = .next t) : Ready s :=
  let ⟨hr, hf, _⟩ := exec_next h
  ⟨hr, hf⟩

end Sys2Proof.Machine
end

section
/-! SUPPORT. WRITE on an empty carry buffer, and so HASH: the lanes are PROCESS of the payload and the buffer its tail
(42_stream_commands.md R97 to R101, 44_oneshot.md R120, R122). -/

namespace Sys2Proof.Machine

/-- With N = 0 there is nothing to top off (R99). -/
theorem topOff_of_empty (P : Primes) (p : Bytes) {s : State} (h : s.buf = []) : topOff P p s = (s, 0) := by
  simp [topOff, State.n, h]

/-- WRITE with N = 0, whether the payload fits the buffer or fills blocks (R98 to R101). -/
theorem writeDigest_of_empty (P : Primes) (p : Bytes) {s : State} (h : s.buf = []) :
    writeDigest P p s = { s with
      lanes := process P s.lanes p
      total := s.total + BitVec.ofNat 64 p.length
      buf := p.drop (processConsumed p) } := by
  have hn : (s.addTotal p.length).n = 0 := by simp [State.n, h]
  by_cases hfit : p.length < 32
  · have hconsumed : processConsumed p = 0 := by simp [processConsumed, hfit]
    rw [writeDigest, if_pos (by omega), process_of_short P _ _ hfit, hconsumed]
    simp [State.memWrite, State.addTotal, h]
  · have hmix : mixPayload P p (p.length / 32) 0 s.lanes = (process P s.lanes p, processConsumed p) := by
      simpa [processConsumed] using mixPayload_eq P p (p.length / 32) 0 s.lanes le_rfl
    rw [writeDigest, if_neg (by omega), writeBlocks, topOff_of_empty P p (s := s.addTotal p.length) h]
    simp [hmix, State.memWrite, State.setLanes, State.addTotal]

@[simp] theorem hashDigest_responses (P : Primes) (p : Bytes) (s : State) :
    (hashDigest P p s).responses = s.responses := by simp [hashDigest]

/-- The digest HASH answers is XXH64 of its payload, whatever the state before (R120, R122). -/
theorem digest_hashDigest (P : Primes) (p : Bytes) (s : State) : (hashDigest P p s).digest P = xxh64 P p := by
  simp [digest_eq, hashDigest, writeDigest_of_empty P p (s := s.clearDigest P) rfl, xxh64]

/-- The value of each command's response (30_encoding.md R71). -/
def responseOf (P : Primes) (s : State) : Instr → Response
  | .reset => .unit
  | .write p => .u64 (BitVec.ofNat 64 p.length)
  | .sum64 => .u64 (finalize P s.lanes s.total s.buf)
  | .sumbe => .bytes8 (be64 (finalize P s.lanes s.total s.buf))
  | .hash p => .u64 (xxh64 P p)

/-- Each command adds its response, once, after those of earlier commands (R70, R71). -/
theorem effectOf_responses_eq (P : Primes) (s : State) (i : Instr) :
    (effectOf P s i).responses = s.responses ++ [responseOf P s i] := by
  cases i with
  | reset => rfl
  | write p => simp [effectOf, responseOf]
  | sum64 => simp [effectOf, responseOf, digest_eq]
  | sumbe => simp [effectOf, responseOf, digest_eq]
  | hash p => simp [effectOf, responseOf, digest_hashDigest]

/-- A ready core completes every command and delivers its response. -/
theorem exec_responds {s : State} (hs : Ready s) (i : Instr) :
    ∃ t, exec i s = .next t ∧ t.responses = s.responses ++ [responseOf Config.primes s i] :=
  ⟨_, exec_of_ready hs i, effectOf_responses_eq Config.primes s i⟩

end Sys2Proof.Machine
end

section
/-! The statements of 30_encoding.md: O1, O4, O32. -/

namespace Sys2Proof.Proofs

open Sys2Proof Sys2Proof.Machine

/-- Settles O4: the decoder calls every proper beginning of a packet incomplete, where a ready core is stuck, and the
whole packet is consumed and executed. -/
theorem incompletePacketWaits : Obligations.IncompletePacketWaits := by
  intro i s hi hs
  refine ⟨fun k h0 hk => ?_, ?_⟩
  · have hd := decode_take_encode hi h0 hk
    exact step_of_incomplete hs (by rwa [arrived_portBytes_only]) (pending_portBytes_only _)
  · have hd := decode_encode hi
    have hstep := step_of_packet (s := { s with port := portBytes (encode i) }) (i := i) (rest := []) hs
      (by rwa [arrived_portBytes_only])
    simpa [State.consumeTo] using hstep

/-- Settles O32: on a ready core by the response each command's effect delivers, and a command that answers a next state
stood on a ready core. -/
theorem eachCommandRespondsOnce : Obligations.EachCommandRespondsOnce := fun _ =>
  ⟨fun hs => ⟨exec_responds hs .reset, fun p => exec_responds hs (.write p), exec_responds hs .sum64,
    exec_responds hs .sumbe, fun p => exec_responds hs (.hash p)⟩,
    fun hs _ _ h => hs (ready_of_exec_next h)⟩

/-- Settles O1: the encoder gives each of R74's packets, and the decoder undoes the encoder. -/
theorem packetExamplesOfTheSpec : Obligations.PacketExamplesOfTheSpec := by
  refine ⟨encode_and_decode_of_encode_eq rfl rfl, encode_and_decode_of_encode_eq rfl rfl,
    encode_and_decode_of_encode_eq rfl rfl, encode_and_decode_of_encode_eq (by decide) (by decide),
    encode_and_decode_of_encode_eq (by decide) (by decide), encode_and_decode_of_encode_eq (by decide) (by decide),
    fun d hd => encode_and_decode_of_encode_eq (wf_write.mpr (by omega)) ?_⟩
  rw [encode, hd]
  rfl

end Sys2Proof.Proofs
end

section
/-! SUPPORT. LE64 loses nothing: its eight bytes are read back from the word (40_datapath_primitives.md R83). -/

namespace Sys2Proof.Machine

/-- Eight bytes are the layout of the word LE64 reads from them. -/
theorem leBytes_le64 {b : Bytes} (h : b.length = 8) : leBytes 8 (le64 b).toNat = b := by
  rw [le64_toNat b h, ← h]
  exact leBytes_leNat b

theorem le64_injective {a b : Bytes} (ha : a.length = 8) (hb : b.length = 8) (h : le64 a = le64 b) : a = b := by
  rw [← leBytes_le64 ha, h, leBytes_le64 hb]

end Sys2Proof.Machine
end

section
/-! The statements of 40_datapath_primitives.md: O10. -/

namespace Sys2Proof.Proofs

open Sys2Proof Sys2Proof.Machine

/-- Settles O10: eight bytes fit the word, so LE64 is their sum by powers of 2^8; two patterns with one word are both
that word's layout; the example is evaluated. -/
theorem le64ReadsLittleEndian : Obligations.Le64ReadsLittleEndian := by
  refine ⟨fun b0 b1 b2 b3 b4 b5 b6 b7 => ?_, fun _ _ => le64_injective, rfl⟩
  rw [le64_toNat _ rfl]
  simp only [leNat]
  ring

end Sys2Proof.Proofs
end

section
/-! SUPPORT. What WRITE does to the state, one equation per case: the payload fits the carry buffer, or it tops off a
buffer that is not empty (42_stream_commands.md R97 to R101). The empty buffer is `writeDigest_of_empty`. -/

namespace Sys2Proof.Machine

/-- A slice from the front is a beginning. -/
theorem slice_zero (b : Bytes) (n : Nat) : slice b 0 n = b.take n := rfl

/-- Step 1: the payload goes to BUF[N..) and no lane changes (R98). -/
theorem writeDigest_of_fits (P : Primes) {p : Bytes} {s : State} (hfit : s.n + p.length < 32) :
    writeDigest P p s = { s with total := s.total + BitVec.ofNat 64 p.length, buf := s.buf ++ p } := by
  rw [writeDigest, addTotal_n, if_pos hfit]
  simp [State.memWrite, State.addTotal, State.n]

/-- Step 2 with N > 0: the bytes of BUF and the first `32 - N` of the payload are mixed, and the buffer is empty (R99). -/
theorem topOff_of_nonempty (P : Primes) (p : Bytes) {s : State} (h0 : 0 < s.n) (hn : s.n ≤ 31) :
    topOff P p s =
      ({ s with lanes := mixBlock P s.lanes (s.buf ++ p.take (32 - s.n)), buf := [] }, 32 - s.n) := by
  have hlength : (s.buf ++ p.take (32 - s.n)).length ≤ 32 := by
    rw [List.length_append, List.length_take, ← n_eq_length]
    omega
  have hblock : (s.memWrite s.n (slice p 0 (32 - s.n))).memRead 0 32 = s.buf ++ p.take (32 - s.n) := by
    rw [State.memRead, slice_zero, memWrite_buf, slice_zero, List.take_of_length_le (n_eq_length s).ge,
      List.take_of_length_le hlength]
  simp only [topOff, if_pos h0, hblock]
  rfl

/-- Steps 2 to 4 with N > 0: the topped-off block is mixed, then the full blocks of what remains of the payload, and the
bytes after them are the new carry buffer (R99 to R101). -/
theorem writeDigest_of_topOff (P : Primes) {p : Bytes} {s : State} (h0 : 0 < s.n) (hn : s.n ≤ 31)
    (hfull : 32 ≤ s.n + p.length) :
    writeDigest P p s = { s with
      lanes := process P (mixBlock P s.lanes (s.buf ++ p.take (32 - s.n))) (p.drop (32 - s.n))
      total := s.total + BitVec.ofNat 64 p.length
      buf := p.drop ((32 - s.n) + 32 * ((p.length - (32 - s.n)) / 32)) } := by
  have htop := topOff_of_nonempty P p (s := s.addTotal p.length) h0 hn
  have hfuel : (p.length - (32 - s.n)) / 32 ≤ p.length / 32 := Nat.div_le_div_right (Nat.sub_le ..)
  rw [writeDigest, addTotal_n, if_neg (Nat.not_lt.mpr hfull), writeBlocks, htop]
  simp only [addTotal_n, mixPayload_eq P p _ _ _ hfuel]
  rfl

end Sys2Proof.Machine
end

section
/-! The statements of 42_stream_commands.md: O18, O17. -/

namespace Sys2Proof.Proofs

open Sys2Proof Sys2Proof.Machine

/-- Settles O18: a ready core completes WRITE with its effect, which is `writeDigest_of_topOff` where N > 0 and
`writeDigest_of_empty` where N = 0. -/
theorem writeMixesEveryFullBlock : Obligations.WriteMixesEveryFullBlock := by
  intro p s hs hn hfull
  refine ⟨fun h0 => ?_, fun h0 => ?_⟩
  · rw [exec_of_ready hs, effectOf, writeDigest_of_topOff _ h0 hn hfull]
    rfl
  · rw [exec_of_ready hs, effectOf, writeDigest_of_empty _ _ (List.eq_nil_of_length_eq_zero h0)]
    rfl

/-- Settles O17: a ready core completes WRITE with its effect, which is `writeDigest_of_fits`; N is then the sum of the
two lengths. -/
theorem writeBuffersWhatFits : Obligations.WriteBuffersWhatFits := by
  intro p s hs hfit
  have hn : (s.buf ++ p).length = s.n + p.length := List.length_append
  refine ⟨_, exec_of_ready hs _, ?_⟩
  rw [effectOf, writeDigest_of_fits _ hfit, respond_n, n_eq_length, hn]
  exact ⟨rfl, by omega, rfl⟩

end Sys2Proof.Proofs
end

section
/-! SUPPORT. The bytes of BE64, and that they are the LE64 layout in inverse order (43_finalization.md R117). -/

namespace Sys2Proof.Machine

/-- Byte `k` of a word is a digit of its value in base 2^8. -/
theorem byteAt_eq_ofNat_div (h : Word) (k : Nat) : byteAt h k = BitVec.ofNat 8 (h.toNat / 2 ^ (8 * k)) := by
  rw [byteAt, BitVec.extractLsb', Nat.shiftRight_eq_div_pow]

/-- Counted from the front, BE64's bytes are the word's bytes from the most significant down. -/
theorem be64_getElem? (h : Word) {j : Nat} (hj : j < 8) : (be64 h)[j]? = some (byteAt h (7 - j)) := by
  interval_cases j <;> rfl

theorem reverse_be64 (h : Word) : (be64 h).reverse = leBytes 8 h.toNat := by
  simp [be64, leBytes, byteAt_eq_ofNat_div, Nat.div_div_eq_div_mul]

theorem le64_reverse_be64 (h : Word) : le64 (be64 h).reverse = h := by
  rw [reverse_be64]
  exact BitVec.eq_of_toNat_eq (le64_leBytes h.toNat h.isLt)

end Sys2Proof.Machine
end

section
/-! The statements of 43_finalization.md: O12. -/

namespace Sys2Proof.Proofs

open Sys2Proof Sys2Proof.Machine

/-- Settles O12: byte j is byte 7 - j of the word, whose lowest bit is 8 (7 - j) = 56 - 8 j; reversed, the bytes are the
layout LE64 reads the word back from; the example is evaluated. -/
theorem be64IsBigEndian : Obligations.Be64IsBigEndian := by
  refine ⟨fun h => ⟨be64_length h, fun j hj => ?_, le64_reverse_be64 h⟩, by decide⟩
  rw [be64_getElem? h hj, byteAt, Nat.mul_sub]

end Sys2Proof.Proofs
end

section
/-! SUPPORT. PROCESS over a concatenation cut at a block boundary (41_block_mixer.md R92). -/

namespace Sys2Proof.Machine

/-- Mixing whole blocks and then the rest is mixing the concatenation. -/
theorem process_append (P : Primes) (v : Lanes) {a : Bytes} (b : Bytes) (ha : 32 ∣ a.length) :
    process P v (a ++ b) = process P (process P v a) b := by
  obtain ⟨k, ha⟩ := ha
  induction k generalizing v a with
  | zero =>
    obtain rfl : a = [] := List.eq_nil_of_length_eq_zero ha
    rfl
  | succ k ih =>
    have hlong : 32 ≤ a.length := by omega
    have hrest : (a.drop 32).length = 32 * k := by rw [List.length_drop]; omega
    have hblock : slice (a ++ b) 0 32 = slice a 0 32 := List.take_append_of_le_length hlong
    rw [process_of_long P v (a ++ b) (by rw [List.length_append]; omega), hblock, List.drop_append_of_le_length hlong,
      ih _ hrest, ← process_of_long P v a hlong]

theorem length_take_full_blocks (S : Bytes) : (S.take (32 * (S.length / 32))).length = 32 * (S.length / 32) := by
  rw [List.length_take]
  exact Nat.min_eq_left (Nat.mul_div_le ..)

/-- PROCESS reads the full blocks alone (R92, R93). -/
theorem process_take_full_blocks (P : Primes) (v : Lanes) (S : Bytes) :
    process P v (S.take (32 * (S.length / 32))) = process P v S := by
  have hshort : (S.drop (32 * (S.length / 32))).length < 32 := by rw [List.length_drop]; omega
  have happend := process_append P v (S.drop (32 * (S.length / 32))) ⟨_, length_take_full_blocks S⟩
  rw [List.take_append_drop, process_of_short P _ _ hshort] at happend
  exact happend.symm

/-- PROCESS of a stream and of more bytes after it: the stream's tail is put before the new bytes (R92). -/
theorem process_append_tail (P : Primes) (v : Lanes) (S p : Bytes) :
    process P (process P v S) (S.drop (32 * (S.length / 32)) ++ p) = process P v (S ++ p) := by
  rw [← process_take_full_blocks P v S, ← process_append P v _ ⟨_, length_take_full_blocks S⟩, ← List.append_assoc,
    List.take_append_drop]

end Sys2Proof.Machine
end

section
/-! SUPPORT. WRITE said once for every N: it processes BUF[0..N) and the payload as one string, and so extends the logical
stream (42_stream_commands.md R97 to R104, 10_state.md R28). -/

namespace Sys2Proof.Machine

/-- WRITE's three cases as one: BUF[0..N) followed by the payload is processed, and its tail is the new carry buffer. -/
theorem writeDigest_eq (P : Primes) (p : Bytes) {s : State} (hn : s.n ≤ 31) :
    writeDigest P p s = { s with
      lanes := process P s.lanes (s.buf ++ p)
      total := s.total + BitVec.ofNat 64 p.length
      buf := (s.buf ++ p).drop (processConsumed (s.buf ++ p)) } := by
  have hlength : (s.buf ++ p).length = s.n + p.length := List.length_append
  by_cases hfit : s.n + p.length < 32
  · have hconsumed : processConsumed (s.buf ++ p) = 0 := by rw [processConsumed, hlength]; omega
    rw [writeDigest_of_fits P hfit, process_of_short P _ _ (by omega), hconsumed, List.drop_zero]
  · by_cases h0 : 0 < s.n
    · have hbuf : s.buf.length ≤ 32 := Nat.le_succ_of_le hn
      have hblock : slice (s.buf ++ p) 0 32 = s.buf ++ p.take (32 - s.n) := by
        rw [slice_zero, List.take_append, List.take_of_length_le hbuf, n_eq_length]
      have hrest : (s.buf ++ p).drop 32 = p.drop (32 - s.n) := by
        rw [List.drop_append, List.drop_of_length_le hbuf, List.nil_append, n_eq_length]
      have hconsumed : processConsumed (s.buf ++ p) = 32 + 32 * ((p.length - (32 - s.n)) / 32) := by
        rw [processConsumed, hlength]; omega
      rw [writeDigest_of_topOff P h0 hn (Nat.le_of_not_lt hfit), process_of_long P _ (s.buf ++ p) (by omega), hblock,
        hconsumed, ← List.drop_drop (l := s.buf ++ p), hrest, List.drop_drop]
    · have hempty : s.buf = [] := List.eq_nil_of_length_eq_zero (Nat.eq_zero_of_not_pos h0)
      rw [writeDigest_of_empty P p hempty, hempty, List.nil_append]

/-- The tail of a stream is shorter than a block (R28 I1). -/
theorem n_le_of_represents {P : Primes} {S : Bytes} {s : State} (h : Represents P S s) : s.n ≤ 31 := by
  rw [n_eq_length, h.buf_eq, List.length_drop]
  omega

/-- A response is no part of the digest state. -/
theorem represents_respond {P : Primes} {S : Bytes} {s : State} (r : Response) (h : Represents P S s) :
    Represents P S (s.respond r) :=
  ⟨h.total_eq, h.lanes_eq, h.buf_eq⟩

/-- RESET starts the empty stream (R96). -/
theorem represents_clearDigest (P : Primes) (s : State) : Represents P [] (s.clearDigest P) := ⟨rfl, rfl, rfl⟩

/-- WRITE appends its payload to the stream (R28, R104). -/
theorem represents_writeDigest {P : Primes} {S : Bytes} (p : Bytes) {s : State} (h : Represents P S s) :
    Represents P (S ++ p) (writeDigest P p s) := by
  have hsplit : S.take (32 * (S.length / 32)) ++ (s.buf ++ p) = S ++ p := by
    rw [h.buf_eq, ← List.append_assoc, List.take_append_drop]
  have hconsumed : 32 * ((S ++ p).length / 32) = 32 * (S.length / 32) + processConsumed (s.buf ++ p) := by
    have hlength := congrArg List.length hsplit
    rw [List.length_append, length_take_full_blocks] at hlength
    rw [processConsumed]
    omega
  rw [writeDigest_eq P p (n_le_of_represents h)]
  refine ⟨?_, ?_, ?_⟩
  · rw [h.total_eq, List.length_append, BitVec.ofNat_add]
  · rw [h.lanes_eq, h.buf_eq, process_append_tail]
  · rw [hconsumed, ← List.drop_drop, ← hsplit, List.drop_left' (length_take_full_blocks S)]

/-- The digest of a state that stands for a stream is XXH64 of the stream (44_oneshot.md R120). -/
theorem digest_of_represents {P : Primes} {S : Bytes} {s : State} (h : Represents P S s) : s.digest P = xxh64 P S := by
  rw [digest_eq, h.lanes_eq, h.total_eq, h.buf_eq, xxh64, processConsumed]

/-- A command of one stream appends its payload to the stream; a read has none (44_oneshot.md R121). -/
theorem represents_effectOf {P : Primes} {S : Bytes} {s : State} {i : Instr} (hi : StreamCommand i)
    (h : Represents P S s) : Represents P (S ++ i.payload) (effectOf P s i) := by
  cases i with
  | write p => exact represents_respond _ (represents_writeDigest p h)
  | sum64 | sumbe =>
    rw [Instr.payload, List.append_nil]
    exact represents_respond _ h
  | reset | hash => exact hi.elim

end Sys2Proof.Machine
end

section
/-! SUPPORT. Lists of commands on a ready core: they all complete, and a list of stream commands appends its payloads to the
stream. -/

namespace Sys2Proof.Machine

/-- A command leaves a ready core ready (60_exceptions.md R130). -/
theorem ready_effectOf {s : State} (P : Primes) (hs : Ready s) (i : Instr) : Ready (effectOf P s i) := by
  obtain ⟨hr, hf⟩ := hs
  exact ⟨(effectOf_resetDone P s i).trans hr, (effectOf_fault P s i).trans hf⟩

/-- On a ready core a list of commands is the effect of the first and then the others. -/
theorem execAll_cons_of_ready {s : State} (hs : Ready s) (i : Instr) (is : List Instr) :
    execAll (i :: is) s = execAll is (effectOf Config.primes s i) := by
  rw [execAll, exec_of_ready hs]

/-- A list of commands on a ready core leaves the fold of their effects. -/
theorem execAll_of_ready {s : State} (hs : Ready s) (is : List Instr) :
    execAll is s = .next (is.foldl (effectOf Config.primes) s) := by
  induction is generalizing s with
  | nil => rfl
  | cons i is ih => rw [execAll_cons_of_ready hs, ih (ready_effectOf _ hs i), List.foldl_cons]

/-- The commands of one stream append their payloads, in order, to the stream (44_oneshot.md R121). -/
theorem represents_foldl_effectOf {P : Primes} {S : Bytes} {s : State} {is : List Instr}
    (his : ∀ i ∈ is, StreamCommand i) (h : Represents P S s) :
    Represents P (S ++ is.flatMap Instr.payload) (is.foldl (effectOf P) s) := by
  induction is generalizing S s with
  | nil => rwa [List.flatMap_nil, List.append_nil]
  | cons i is ih =>
    obtain ⟨hi, his⟩ := List.forall_mem_cons.mp his
    rw [List.flatMap_cons, ← List.append_assoc, List.foldl_cons]
    exact ih his (represents_effectOf hi h)

end Sys2Proof.Machine
end

section
/-! The statements of 44_oneshot.md: O28. -/

namespace Sys2Proof.Proofs

open Sys2Proof Sys2Proof.Machine

/-- Settles O28: after RESET the state stands for the empty stream, after the list for the concatenation of the payloads,
and SUM64 responds the digest of that state. The bound on the length is not needed: TOTAL and XXH64 both count modulo
2^64. -/
theorem streamingEqualsOneShot : Obligations.StreamingEqualsOneShot := by
  intro cmds s hs hcmds _
  have hstream : Represents Config.primes (cmds.flatMap Instr.payload)
      (cmds.foldl (effectOf Config.primes) (effectOf Config.primes s .reset)) :=
    represents_foldl_effectOf hcmds (represents_respond .unit (represents_clearDigest _ s))
  refine ⟨_, execAll_of_ready hs _, ?_⟩
  rw [List.foldl_cons, List.foldl_concat, effectOf_responses_eq, List.getLast?_concat, responseOf, ← digest_eq,
    digest_of_represents hstream]

end Sys2Proof.Proofs
end

section
/-! SUPPORT. Where the decoder finds an illegal opcode byte: exactly at the head of the bytes, and exactly for the bytes
that are none of the five opcodes (30_encoding.md R62, R68). -/

namespace Sys2Proof

open Sys2Proof.Machine

/-- A byte that is not illegal is one of the five opcodes (R62, R68). -/
theorem opcode_of_not_illegalOpcode {op : Byte} (h : ¬ IllegalOpcode op) :
    op = 1#8 ∨ op = 2#8 ∨ op = 3#8 ∨ op = 4#8 ∨ op = 5#8 := by
  obtain ⟨h0, h6⟩ := not_or.mp h
  bv_omega

theorem decode_of_illegalOpcode {op : Byte} (h : IllegalOpcode op) (b : Bytes) : decode (op :: b) = .illegal op b := by
  rcases opcode_cases op with rfl | rfl | rfl | rfl | rfl | hillegal
  case inr.inr.inr.inr.inr => exact hillegal b
  all_goals exact absurd h (by decide)

/-- Behind the opcode byte of format CL nothing can be illegal: LEN and the payload are data (R65). -/
theorem decodeCL_ne_illegal (command : Bytes → Instr) (b : Bytes) (op : Byte) (rest : Bytes) :
    decodeCL command b ≠ .illegal op rest := by
  rcases decodeCL_cases command b with h | ⟨_, _, _, _, h⟩ <;> simp [h]

/-- The decoder of a ready core raises IllegalCommand for an illegal opcode byte at the packet boundary and for nothing
else (R68). -/
theorem decode_eq_illegal_iff {b : Bytes} {op : Byte} {rest : Bytes} :
    decode b = .illegal op rest ↔ b = op :: rest ∧ IllegalOpcode op := by
  refine ⟨fun hd => ?_, fun ⟨hb, hop⟩ => hb ▸ decode_of_illegalOpcode hop rest⟩
  cases b with
  | nil => cases hd
  | cons first b =>
    by_cases hfirst : IllegalOpcode first
    · rw [decode_of_illegalOpcode hfirst] at hd
      cases hd
      exact ⟨rfl, hfirst⟩
    · rcases opcode_of_not_illegalOpcode hfirst with rfl | rfl | rfl | rfl | rfl
      · cases hd
      · exact (decodeCL_ne_illegal _ _ _ _ hd).elim
      · cases hd
      · cases hd
      · exact (decodeCL_ne_illegal _ _ _ _ hd).elim

end Sys2Proof
end

section
/-! SUPPORT. The checks of 60_exceptions.md R136, one equation of `step` each, and what a step that leaves FAULT = 1 was. -/

namespace Sys2Proof.Machine

/-- With no reset event at the port there is no step, for the reason named. -/
theorem awaitReset_of_pending_nil (P : Primes) {s : State} (hp : pending s.port = [])
    (stuck : Host.Outcome State Fault Refusal) : awaitReset P s stuck = stuck := by
  simp [awaitReset, hp]

/-- First check: before a hardware reset has completed only the reset input acts (R151). -/
theorem step_of_not_resetDone {s : State} (hr : s.resetDone = false) :
    step s = awaitReset Config.primes s (.refused .beforeHardwareReset) := by
  simp [step, stepBy, hr]

/-- Second check: while FAULT = 1 only the reset input acts (R132). -/
theorem step_of_faulted {s : State} (hr : s.resetDone = true) (hf : s.fault = true) :
    step s = awaitReset Config.primes s (.refused .faulted) := by
  simp [step, stepBy, hr, hf]

/-- Third check: an illegal opcode byte is consumed and raises IllegalCommand (R131). -/
theorem step_of_illegalOpcode {s : State} {op : Byte} {rest : Bytes} (hs : Ready s)
    (ha : arrived s.port = op :: rest) (hop : IllegalOpcode op) :
    step s = .next ((s.consumeTo rest).raiseIllegalCommand op) := by
  obtain ⟨hr, hf⟩ := hs
  simp [step, stepBy, hr, hf, ha, decode_of_illegalOpcode hop]

/-- Of all a step can do, a reset event and a command leave FAULT = 0; so FAULT = 1 comes of an illegal opcode byte alone
(R131). -/
theorem illegalOpcode_of_step_fault {s t : State} (hstep : step s = .next t) (ht : t.fault = true) :
    ∃ op rest, arrived s.port = op :: rest ∧ IllegalOpcode op := by
  rcases step_cases hstep with ⟨rest, _, rfl⟩ | ⟨_, hf, i, rest, _, rfl⟩ | ⟨_, _, op, rest, hd, _⟩
  · simp at ht
  · simp [effectOf_fault, hf] at ht
  · exact ⟨op, rest, decode_eq_illegal_iff.mp hd⟩

end Sys2Proof.Machine
end

section
/-! The statements of 60_exceptions.md: O36, O31, O38. -/

namespace Sys2Proof.Proofs

open Sys2Proof Sys2Proof.Machine

/-- Settles O36: the third check raises IllegalCommand for the illegal byte, and no other step leaves FAULT = 1. -/
theorem illegalOpcodeIsTheOnlyException : Obligations.IllegalOpcodeIsTheOnlyException := fun _ hs =>
  ⟨fun _ _ ha hop => step_of_illegalOpcode hs ha hop, fun _ hstep ht => illegalOpcode_of_step_fault hstep ht⟩

/-- Settles O31: on a ready core a command completes with its effect, which leaves the core ready. -/
theorem commandsNeverFail : Obligations.CommandsNeverFail := fun i _ hs =>
  ⟨_, exec_of_ready hs i, (ready_effectOf _ hs i).2⟩

/-- Settles O38: the port holds bytes and no reset event, so the first two checks refuse; the third raises IllegalCommand
for an illegal byte, and a step that leaves FAULT = 1 was of one. -/
theorem checksAreMadeInOrder : Obligations.ChecksAreMadeInOrder := by
  intro s op rest hport
  have harrived : arrived s.port = op :: rest := by rw [hport, arrived_portBytes_only]
  have hpending : pending s.port = [] := by rw [hport, pending_portBytes_only]
  refine ⟨fun hr => ?_, fun hr hf => ?_, fun hr hf hop => ?_, fun _ _ hop t hstep => ?_⟩
  · rw [step_of_not_resetDone hr, awaitReset_of_pending_nil _ hpending]
  · rw [step_of_faulted hr hf, awaitReset_of_pending_nil _ hpending]
  · rw [step_of_illegalOpcode ⟨hr, hf⟩ harrived hop, State.consumeTo, hpending, List.append_nil]
    rfl
  · by_contra hfault
    obtain ⟨op', rest', harrived', hop'⟩ := illegalOpcode_of_step_fault hstep (Bool.eq_true_of_not_eq_false hfault)
    obtain ⟨rfl, _⟩ := List.cons.inj (harrived.symm.trans harrived')
    exact hop hop'

end Sys2Proof.Proofs
end

section
/-! SUPPORT. Where a step waits on the reset input, and what it does when an assertion is there (70_reset_and_hazards.md
R150). -/

namespace Sys2Proof.Machine

/-- The reset event at the port acts, whatever the step would have been stuck on. -/
theorem awaitReset_of_pending_reset (P : Primes) {s : State} {rest : List PortEvent}
    (hp : pending s.port = .hardwareReset :: rest) (stuck : Host.Outcome State Fault Refusal) :
    awaitReset P s stuck = .next (s.hardwareReset P rest) := by
  simp [awaitReset, hp]

/-- A ready core at which no byte has arrived waits on the reset input. -/
theorem step_of_arrived_nil {s : State} (hs : Ready s) (ha : arrived s.port = []) :
    step s = awaitReset Config.primes s (.fault .awaitingPacket) := by
  obtain ⟨hr, hf⟩ := hs
  simp [step, stepBy, hr, hf, ha]

/-- A ready core in the middle of a packet waits on the reset input. -/
theorem step_of_incomplete_eq_awaitReset {s : State} (hs : Ready s) (hd : decode (arrived s.port) = .incomplete) :
    step s = awaitReset Config.primes s (.fault .packetIncomplete) := by
  obtain ⟨hr, hf⟩ := hs
  simp [step, stepBy, hr, hf, hd]

/-- Wherever no command and no illegal opcode byte can be taken, the step is the wait on the reset input (60_exceptions.md
R136). -/
theorem step_eq_awaitReset {s : State}
    (h : arrived s.port = [] ∨ s.resetDone = false ∨ s.fault = true ∨ decode (arrived s.port) = .incomplete) :
    ∃ stuck, step s = awaitReset Config.primes s stuck := by
  cases hr : s.resetDone with
  | false => exact ⟨_, step_of_not_resetDone hr⟩
  | true =>
    cases hf : s.fault with
    | true => exact ⟨_, step_of_faulted hr hf⟩
    | false =>
      rcases h with ha | hr' | hf' | hd
      · exact ⟨_, step_of_arrived_nil ⟨hr, hf⟩ ha⟩
      · simp [hr] at hr'
      · simp [hf] at hf'
      · exact ⟨_, step_of_incomplete_eq_awaitReset ⟨hr, hf⟩ hd⟩

end Sys2Proof.Machine
end

section
/-! The statements of 70_reset_and_hazards.md: O39. -/

namespace Sys2Proof.Proofs

open Sys2Proof Sys2Proof.Machine

/-- Settles O39: in each of the four situations the step waits on the reset input, and the assertion behind the bytes `b` is
there. -/
theorem hardwareResetFromAnyState : Obligations.HardwareResetFromAnyState := by
  intro s b rest hport hb
  have harrived : arrived s.port = b := by rw [hport, arrived_portBytes, arrived_reset, List.append_nil]
  have hpending : pending s.port = .hardwareReset :: rest := by rw [hport, pending_portBytes, pending_reset]
  rw [← harrived] at hb
  obtain ⟨stuck, hstep⟩ := step_eq_awaitReset hb
  rw [hstep, awaitReset_of_pending_reset _ hpending, hardwareReset_eq]

end Sys2Proof.Proofs
end

section
/-! SUPPORT. A packet read is a well-formed command's packet, and a stream of packets is read packet by packet
(30_encoding.md R61, R66, R68). -/

namespace Sys2Proof

open Sys2Proof.Machine

/-- A CL packet that has been read is LEN and as many payload bytes, and what is left over. -/
theorem decodeCL_eq_packet {command : Bytes → Instr} {b rest : Bytes} {i : Instr}
    (h : decodeCL command b = .packet i rest) :
    ∃ p, p.length < 2 ^ 64 ∧ b = leBytes 8 p.length ++ (p ++ rest) ∧ i = command p := by
  rcases decodeCL_cases command b with hinc | ⟨p, rest', hp, hb, hd⟩
  · rw [hinc] at h
    cases h
  · rw [hd] at h
    cases h
    exact ⟨p, hp, hb, rfl⟩

/-- Whatever is read as a packet is the packet of the command read, and that command has one (R61, R66). -/
theorem eq_encode_of_decode {b rest : Bytes} {i : Instr} (h : decode b = .packet i rest) :
    i.wf = true ∧ b = encode i ++ rest := by
  cases b with
  | nil => cases h
  | cons op b =>
    rcases opcode_cases op with rfl | rfl | rfl | rfl | rfl | hillegal
    · cases h
      exact ⟨rfl, rfl⟩
    · obtain ⟨p, hp, rfl, rfl⟩ := decodeCL_eq_packet h
      exact ⟨wf_write.mpr hp, by simp [encode]⟩
    · cases h
      exact ⟨rfl, rfl⟩
    · cases h
      exact ⟨rfl, rfl⟩
    · obtain ⟨p, hp, rfl, rfl⟩ := decodeCL_eq_packet h
      exact ⟨wf_hash.mpr hp, by simp [encode]⟩
    · rw [hillegal] at h
      cases h

/-- Every packet has at least its opcode byte. -/
theorem length_le_length_flatMap_encode (cmds : List Instr) : cmds.length ≤ (cmds.flatMap encode).length := by
  have hpos : ∀ i : Instr, 1 ≤ (encode i).length := fun i => by cases i <;> simp [encode]
  simpa [List.length_flatMap] using List.length_le_sum_of_one_le (cmds.map fun i => (encode i).length) (by simp [hpos])

/-- One unit of fuel per command reads the commands' packets, whatever stands after them (R66). -/
theorem decodeStreamAux_flatMap_encode {cmds : List Instr} (hcmds : ∀ i ∈ cmds, i.wf = true) (fuel : Nat)
    (rest : Bytes) :
    decodeStreamAux (cmds.length + fuel) (cmds.flatMap encode ++ rest) =
      (cmds ++ (decodeStreamAux fuel rest).1, (decodeStreamAux fuel rest).2) := by
  induction cmds with
  | nil => simp
  | cons i cmds ih =>
    obtain ⟨hi, hcmds⟩ := List.forall_mem_cons.mp hcmds
    rw [List.length_cons, Nat.add_right_comm, List.flatMap_cons, List.append_assoc, decodeStreamAux,
      decode_encode_append hi]
    simp [ih hcmds]

/-- The decoder reads the whole packets of a stream and goes on behind them with fuel left (R66). -/
theorem decodeStream_flatMap_encode {cmds : List Instr} (hcmds : ∀ i ∈ cmds, i.wf = true) (rest : Bytes) :
    ∃ fuel, decodeStream (cmds.flatMap encode ++ rest) =
      (cmds ++ (decodeStreamAux (fuel + 1) rest).1, (decodeStreamAux (fuel + 1) rest).2) := by
  obtain ⟨spare, hspare⟩ := Nat.exists_eq_add_of_le (length_le_length_flatMap_encode cmds)
  refine ⟨spare + rest.length, ?_⟩
  rw [← decodeStreamAux_flatMap_encode hcmds, decodeStream, List.length_append, hspare]
  simp only [Nat.add_assoc]

end Sys2Proof
end

section
/-! SUPPORT. The pieces WRITEN cuts its operand into (30_encoding.md R73). -/

namespace Sys2Proof.Machine

@[simp] theorem chunksAux_nil (k fuel : Nat) : chunksAux k fuel [] = [] := by cases fuel <;> rfl

/-- A byte sequence that is not empty gives its first `k` bytes and the pieces of the rest. -/
theorem chunksAux_of_ne_nil (k fuel : Nat) {b : Bytes} (hb : b ≠ []) :
    chunksAux k (fuel + 1) b = b.take k :: chunksAux k fuel (b.drop k) := by
  cases b with
  | nil => exact (hb rfl).elim
  | cons x xs => rfl

variable {k : Nat}

/-- Every piece but the last has `k` bytes: only the last can have been cut short. -/
theorem length_of_mem_dropLast_chunksAux {fuel : Nat} {b c : Bytes} (hc : c ∈ (chunksAux k fuel b).dropLast) :
    c.length = k := by
  induction fuel generalizing b with
  | zero => cases hc
  | succ fuel ih =>
    by_cases h0 : b = []
    · simp [h0] at hc
    · by_cases hlast : chunksAux k fuel (b.drop k) = []
      · simp [chunksAux_of_ne_nil k fuel h0, hlast] at hc
      · rw [chunksAux_of_ne_nil k fuel h0, List.dropLast_cons_of_ne_nil hlast] at hc
        rcases List.mem_cons.mp hc with rfl | hc
        · have hrest : b.drop k ≠ [] := fun h => hlast (by rw [h, chunksAux_nil])
          have hlt := List.drop_eq_nil_iff.not.mp hrest
          rw [List.length_take]
          omega
        · exact ih hc

variable (hk : 1 ≤ k)
include hk

/-- The pieces lose no byte and keep the order. -/
theorem flatten_chunksAux {fuel : Nat} {b : Bytes} (hb : b.length ≤ fuel) : (chunksAux k fuel b).flatten = b := by
  induction fuel generalizing b with
  | zero => rw [List.eq_nil_of_length_eq_zero (Nat.le_zero.mp hb), chunksAux_nil, List.flatten_nil]
  | succ fuel ih =>
    by_cases h0 : b = []
    · simp [h0]
    · rw [chunksAux_of_ne_nil k fuel h0, List.flatten_cons, ih (by rw [List.length_drop]; omega),
        List.take_append_drop]

/-- Every piece has between 1 and `k` bytes. -/
theorem length_of_mem_chunksAux {fuel : Nat} {b c : Bytes} (hc : c ∈ chunksAux k fuel b) :
    1 ≤ c.length ∧ c.length ≤ k := by
  induction fuel generalizing b with
  | zero => cases hc
  | succ fuel ih =>
    by_cases h0 : b = []
    · simp [h0] at hc
    · have hpos := List.length_pos_of_ne_nil h0
      rw [chunksAux_of_ne_nil k fuel h0] at hc
      rcases List.mem_cons.mp hc with rfl | hc
      · rw [List.length_take]
        omega
      · exact ih hc

end Sys2Proof.Machine
end

section
/-! The further statements of 30_encoding.md: O2, O3, O5, O6. -/

namespace Sys2Proof.Proofs

open Sys2Proof Sys2Proof.Machine

/-- Settles O2: the opcode byte selects the command's format, and in format CL the LEN field is read back as the payload's
length, which fits 64 bits. -/
theorem decodeOfEncodeIsTheCommand : Obligations.DecodeOfEncodeIsTheCommand := fun _ hi rest =>
  decode_encode_append hi rest

/-- Settles O3: the opcode byte and, in format CL, the LEN field are those the encoder writes. -/
theorem decodedBytesAreThePacket : Obligations.DecodedBytesAreThePacket := fun _ _ _ => eq_encode_of_decode

/-- Settles O5: behind the packets of the list the decoder finds the end of the stream, or the illegal byte. -/
theorem streamDecodesToItsCommands : Obligations.StreamDecodesToItsCommands := by
  intro cmds hcmds
  refine ⟨?_, fun op junk hop => ?_⟩
  · obtain ⟨fuel, h⟩ := decodeStream_flatMap_encode hcmds []
    simpa [decodeStreamAux] using h
  · obtain ⟨fuel, h⟩ := decodeStream_flatMap_encode hcmds (op :: junk)
    simpa [decodeStreamAux, decode_of_illegalOpcode hop] using h

/-- Settles O6: NEW and NOPW are evaluated; the pieces of WRITEN are `chunks`, whose fuel is the operand's length. -/
theorem pseudoCommandsExpand : Obligations.PseudoCommandsExpand :=
  ⟨rfl, rfl, by decide, fun k b hk =>
    ⟨chunks k b, rfl, flatten_chunksAux hk le_rfl, fun _ => length_of_mem_chunksAux hk,
      fun _ => length_of_mem_dropLast_chunksAux⟩⟩

end Sys2Proof.Proofs
end

section
/-! SUPPORT. Which parts of a step leave the logical stream alone, start it anew or extend it (10_state.md R28,
60_exceptions.md R131). -/

namespace Sys2Proof.Machine

variable {P : Primes} {S : Bytes} {s : State}

/-- The port is no part of the digest state. -/
theorem represents_consumeTo (rest : Bytes) (h : Represents P S s) : Represents P S (s.consumeTo rest) :=
  ⟨h.total_eq, h.lanes_eq, h.buf_eq⟩

/-- A fault leaves the digest state alone (60_exceptions.md R131). -/
theorem represents_raiseIllegalCommand (op : Byte) (h : Represents P S s) :
    Represents P S (s.raiseIllegalCommand op) :=
  ⟨h.total_eq, h.lanes_eq, h.buf_eq⟩

/-- Hardware reset starts the empty stream (70_reset_and_hazards.md R150). -/
theorem represents_hardwareReset (P : Primes) (s : State) (rest : List PortEvent) :
    Represents P [] (s.hardwareReset P rest) := ⟨rfl, rfl, rfl⟩

/-- So does the state after power-up reset (10_state.md R33). -/
theorem represents_resetAt (P : Primes) : Represents P [] (State.resetAt P) := ⟨rfl, rfl, rfl⟩

/-- After reset the core executes commands (R33). -/
theorem ready_reset : Ready State.reset := ⟨rfl, rfl⟩

/-- HASH leaves the state of its payload's own stream, whatever stream there was (44_oneshot.md R122). -/
theorem represents_hashDigest (P : Primes) (p : Bytes) (s : State) : Represents P p (hashDigest P p s) :=
  represents_writeDigest p (represents_clearDigest P s)

/-- After every command the digest state again stands for some stream. -/
theorem exists_represents_effectOf (i : Instr) (h : Represents P S s) : ∃ S', Represents P S' (effectOf P s i) := by
  cases i with
  | reset => exact ⟨[], represents_respond _ (represents_clearDigest P s)⟩
  | write p => exact ⟨_, represents_effectOf (i := .write p) trivial h⟩
  | sum64 => exact ⟨_, represents_effectOf (i := .sum64) trivial h⟩
  | sumbe => exact ⟨_, represents_effectOf (i := .sumbe) trivial h⟩
  | hash p => exact ⟨p, represents_respond _ (represents_hashDigest P p s)⟩

/-- The invariant is kept by all a step can do: the reset event, a command, an illegal opcode byte. -/
theorem atRest_of_stepAt {t : State} (h : AtRest P s) (hstep : stepAt P s = .next t) : AtRest P t := by
  intro _
  rcases stepAt_cases hstep with ⟨rest, _, rfl⟩ | ⟨hr, _, i, rest, _, rfl⟩ | ⟨hr, _, op, rest, _, rfl⟩
  · exact ⟨[], represents_hardwareReset P s rest⟩
  · obtain ⟨S, hS⟩ := h hr
    exact exists_represents_effectOf i (represents_consumeTo rest hS)
  · obtain ⟨S, hS⟩ := h hr
    exact ⟨S, represents_raiseIllegalCommand op (represents_consumeTo rest hS)⟩

/-- N is the length of the stream's tail (R28 I5). -/
theorem n_of_represents (h : Represents P S s) : s.n = S.length % 32 := by
  rw [n_eq_length, h.buf_eq, List.length_drop]
  omega

/-- TOTAL is the stream's length modulo 2^64, and so agrees with it modulo 32 (R28 I2). -/
theorem total_mod_of_represents (h : Represents P S s) : s.total.toNat % 32 = S.length % 32 := by
  rw [h.total_eq, BitVec.toNat_ofNat]
  exact Nat.mod_mod_of_dvd _ (by decide)

/-- A stream without a full block leaves the lanes at their initial values (R28 I6). -/
theorem lanes_of_represents_short (h : Represents P S s) (hS : S.length < 32) : s.lanes = Lanes.init P := by
  rw [h.lanes_eq, process_of_short P _ _ hS]

end Sys2Proof.Machine
end

section
/-! The statements of 10_state.md: O42, O43, O41, O22. -/

namespace Sys2Proof.Proofs

open Sys2Proof Sys2Proof.Machine

/-- Settles O42: `atRest_of_stepAt`, and `step` is `stepAt` with the primes of the configuration. -/
theorem everyStepKeepsTheInvariant : Obligations.EveryStepKeepsTheInvariant :=
  ⟨fun _ _ _ => atRest_of_stepAt, fun s _ h hstep => atRest_of_stepAt h ((step_eq_stepAt s).symm.trans hstep)⟩

/-- Settles O43: N and TOTAL agree with the stream's length modulo 32, and without a full block PROCESS mixes nothing. -/
theorem invariantBoundsTheBuffer : Obligations.InvariantBoundsTheBuffer := by
  intro P S s h
  refine ⟨n_of_represents h, (n_of_represents h).trans (total_mod_of_represents h).symm, n_le_of_represents h,
    fun hS => ?_⟩
  rw [lanes_of_represents_short h hS]
  exact ⟨rfl, rfl⟩

/-- Settles O41: at reset TOTAL, the lanes and BUF are those of the empty stream. -/
theorem resetStateIsAtRest : Obligations.ResetStateIsAtRest :=
  ⟨represents_resetAt _, fun _ => ⟨[], represents_resetAt _⟩⟩

/-- Settles O22: a ready core completes WRITE with its effect, which appends the payload to the stream. -/
theorem writeAppendsToTheStream : Obligations.WriteAppendsToTheStream := fun _ p _ hs h =>
  ⟨_, exec_of_ready hs (.write p), represents_effectOf (i := .write p) trivial h⟩

end Sys2Proof.Proofs
end

section
/-! SUPPORT. Which datapath primitives lose no bit: rotation, multiplication by an odd word, xor with a shifted copy
(40_datapath_primitives.md section 2, 43_finalization.md section 2). -/

namespace Sys2Proof.Machine

/-- ROTL is the library's rotation (R80). -/
theorem rotl_eq_rotateLeft (x : Word) {r : Nat} (hr : r < 64) : rotl x r = x.rotateLeft r := by
  rw [BitVec.rotateLeft_def, Nat.mod_eq_of_lt hr, rotl]

/-- Rotation moves bit `i` up by `r` places, from the top round to the bottom. -/
theorem getLsbD_rotl (x : Word) {r i : Nat} (hr : r < 64) (hi : i < 64) :
    (rotl x r).getLsbD ((i + r) % 64) = x.getLsbD i := by
  rw [rotl_eq_rotateLeft x hr, BitVec.getLsbD_rotateLeft, Nat.mod_eq_of_lt hr]
  by_cases hwrap : i + r < 64
  · have hge : ¬ i + r < r := by omega
    simp [Nat.mod_eq_of_lt hwrap, hwrap, hge]
  · have hmod : (i + r) % 64 = i + r - 64 := by omega
    have hlt : i + r - 64 < r := by omega
    have hback : 64 - r + (i + r - 64) = i := by omega
    simp [hmod, hlt, hback]

/-- A map of words that is injective is a bijection, for there are finitely many words. -/
theorem bijective_of_injective {f : Word → Word} (hf : Function.Injective f) : Function.Bijective f :=
  have : Finite Word := Finite.of_injective BitVec.toFin fun _ _ => BitVec.eq_of_toFin_eq
  Finite.injective_iff_bijective.mp hf

/-- Rotation loses no bit: each is found again in its new place. -/
theorem bijective_rotl {r : Nat} (hr : r < 64) : Function.Bijective fun x => rotl x r := by
  refine bijective_of_injective fun x y h => BitVec.eq_of_getLsbD_eq fun i hi => ?_
  have h' : rotl x r = rotl y r := h
  rw [← getLsbD_rotl x hr hi, h', getLsbD_rotl y hr hi]

/-- An odd factor can be cancelled modulo 2^64. -/
theorem bijective_mul_of_odd {p : Word} (hp : p.getLsbD 0 = true) : Function.Bijective fun x => x * p := by
  refine bijective_of_injective fun x y h => BitVec.eq_of_toNat_eq ?_
  have hodd : p.toNat % 2 = 1 := by simpa [BitVec.getLsbD, Nat.testBit_zero] using hp
  have hcoprime : Nat.Coprime (2 ^ 64) p.toNat :=
    Nat.Coprime.pow_left 64 (Nat.coprime_two_left.mpr (Nat.odd_iff.mpr hodd))
  have hmul : x.toNat * p.toNat ≡ y.toNat * p.toNat [MOD 2 ^ 64] := by
    simpa [Nat.ModEq, BitVec.toNat_mul] using congrArg BitVec.toNat h
  exact Nat.ModEq.eq_of_lt_of_lt (hmul.cancel_right_of_coprime hcoprime) x.isLt y.isLt

theorem getLsbD_xorShift (x : Word) (k i : Nat) :
    (xorShift x k).getLsbD i = (x.getLsbD i ^^ x.getLsbD (k + i)) := by
  simp [xorShift]

/-- Bit `i` of `h ^ (h >> k)` is bit `i` of `h` but for a bit above it: from the top bit down, `h` can be read back. -/
theorem getLsbD_eq_of_xorShift_eq {x y : Word} {k : Nat} (hk : 0 < k) (h : xorShift x k = xorShift y k) (n : Nat) :
    ∀ i, 64 ≤ i + n → x.getLsbD i = y.getLsbD i := by
  induction n with
  | zero =>
    intro i hi
    rw [BitVec.getLsbD_of_ge x i hi, BitVec.getLsbD_of_ge y i hi]
  | succ n ih =>
    intro i hi
    have hbit : (x.getLsbD i ^^ x.getLsbD (k + i)) = (y.getLsbD i ^^ y.getLsbD (k + i)) := by
      rw [← getLsbD_xorShift, h, getLsbD_xorShift]
    rw [ih (k + i) (by omega)] at hbit
    exact Bool.xor_left_inj.mp hbit

theorem bijective_xorShift {k : Nat} (hk : 0 < k) : Function.Bijective fun x => xorShift x k :=
  bijective_of_injective fun _ _ h =>
    BitVec.eq_of_getLsbD_eq fun i _ => getLsbD_eq_of_xorShift_eq hk h 64 i (by omega)

variable {P : Primes}

/-- ROUND in its accumulator: add, rotate, multiply by PRIME1 (R81). -/
theorem bijective_round_acc (h1 : P.prime1.getLsbD 0 = true) (input : Word) :
    Function.Bijective fun acc => round P acc input :=
  (bijective_mul_of_odd h1).comp ((bijective_rotl (by decide)).comp (Equiv.addRight (input * P.prime2)).bijective)

/-- ROUND in its input: multiply by PRIME2, add, rotate, multiply by PRIME1 (R81). -/
theorem bijective_round_input (h1 : P.prime1.getLsbD 0 = true) (h2 : P.prime2.getLsbD 0 = true) (acc : Word) :
    Function.Bijective fun input => round P acc input :=
  (bijective_mul_of_odd h1).comp
    ((bijective_rotl (by decide)).comp ((Equiv.addLeft acc).bijective.comp (bijective_mul_of_odd h2)))

/-- AVALANCHE: three xor-shifts with a multiplication between them (R113). -/
theorem bijective_avalanche (h2 : P.prime2.getLsbD 0 = true) (h3 : P.prime3.getLsbD 0 = true) :
    Function.Bijective (avalanche P) :=
  (bijective_xorShift (by decide)).comp ((bijective_mul_of_odd h3).comp
    ((bijective_xorShift (by decide)).comp ((bijective_mul_of_odd h2).comp (bijective_xorShift (by decide)))))

/-- LE32 of four bytes loses nothing (R84). -/
theorem le32_toNat {b : Bytes} (h : b.length = 4) : (le32 b).toNat = leNat b := by
  have hlt := leNat_lt b
  rw [h] at hlt
  rw [le32, BitVec.zeroExtend, BitVec.toNat_setWidth_of_le (by decide), BitVec.toNat_ofNat,
    Nat.mod_eq_of_lt hlt]

/-- The bits a widening adds are zero (R84). -/
theorem getLsbD_le32_of_ge (b : Bytes) {k : Nat} (hk : 32 ≤ k) : (le32 b).getLsbD k = false := by
  rw [le32, BitVec.zeroExtend, BitVec.getLsbD_setWidth, BitVec.getLsbD_of_ge _ k hk, Bool.and_false]

/-- ZX8 keeps the byte's value (R85). -/
theorem zx8_toNat (b : Byte) : (zx8 b).toNat = b.toNat := BitVec.toNat_setWidth_of_le (by decide)

end Sys2Proof.Machine
end

section
/-! The further statements of 40_datapath_primitives.md, and AVALANCHE of 43_finalization.md: O7, O8, O9, O11. -/

namespace Sys2Proof.Proofs

open Sys2Proof Sys2Proof.Machine

/-- Settles O7: `getLsbD_rotl`, which holds for r = 0 too. -/
theorem rotlMovesEachBit : Obligations.RotlMovesEachBit := fun x _ _ _ hr hi => getLsbD_rotl x hr hi

/-- Settles O8: ROUND is a composition of bijections in either operand. -/
theorem roundIsABijection : Obligations.RoundIsABijection := fun _ h1 h2 =>
  ⟨bijective_round_acc h1, bijective_round_input h1 h2⟩

/-- Settles O9: AVALANCHE is a composition of bijections. -/
theorem avalancheIsABijection : Obligations.AvalancheIsABijection := fun _ => bijective_avalanche

/-- Settles O11: the widened values are those of the bytes, and the example is evaluated. -/
theorem narrowOperandsAreZeroExtended : Obligations.NarrowOperandsAreZeroExtended := by
  refine ⟨fun b0 b1 b2 b3 => ?_, fun b _ _ => getLsbD_le32_of_ge b, zx8_toNat, by decide⟩
  rw [le32_toNat rfl]
  simp only [leNat]
  ring

end Sys2Proof.Proofs
end

section
/-! SUPPORT. PROCESS over a list of blocks (41_block_mixer.md R90, R92). -/

namespace Sys2Proof.Machine

theorem length_flatten_blocks {blocks : List Bytes} (hblocks : ∀ blk ∈ blocks, blk.length = 32) :
    blocks.flatten.length = 32 * blocks.length := by
  rw [List.length_flatten, List.map_congr_left hblocks, List.map_const', List.sum_replicate, smul_eq_mul, Nat.mul_comm]

/-- PROCESS of one block is MIXBLOCK. -/
theorem process_of_block (P : Primes) (v : Lanes) {blk : Bytes} (h : blk.length = 32) :
    process P v blk = mixBlock P v blk := by
  have hslice : slice blk 0 32 = blk := h ▸ slice_all blk
  rw [process_of_long P v blk h.ge, hslice, List.drop_of_length_le h.le]
  rfl

/-- PROCESS mixes a list of blocks one after another. -/
theorem process_flatten_blocks (P : Primes) (v : Lanes) {blocks : List Bytes}
    (hblocks : ∀ blk ∈ blocks, blk.length = 32) : process P v blocks.flatten = blocks.foldl (mixBlock P) v := by
  induction blocks generalizing v with
  | nil => rfl
  | cons blk blocks ih =>
    obtain ⟨hblk, hblocks⟩ := List.forall_mem_cons.mp hblocks
    rw [List.flatten_cons, process_append P v _ (dvd_of_eq hblk.symm), process_of_block P v hblk, ih _ hblocks,
      List.foldl_cons]

end Sys2Proof.Machine
end

section
/-! The statements of 41_block_mixer.md: O14, O15, O13. -/

namespace Sys2Proof.Proofs

open Sys2Proof Sys2Proof.Machine

/-- Settles O14: the blocks end at a multiple of 32 bytes, and the tail behind them is too short to mix. -/
theorem processMixesFullBlocksInOrder : Obligations.ProcessMixesFullBlocksInOrder := by
  intro P v blocks tail hblocks htail
  have hlength := length_flatten_blocks hblocks
  refine ⟨?_, ?_⟩
  · rw [process_append P v tail ⟨_, hlength⟩, process_of_short P _ _ htail, process_flatten_blocks P v hblocks]
  · rw [processConsumed, List.length_append, hlength]
    omega

/-- Settles O15: `process_append`. -/
theorem processOfConcatenation : Obligations.ProcessOfConcatenation := fun P v _ b ha =>
  process_append P v b (Nat.dvd_of_mod_eq_zero ha)

/-- Settles O13: each lane of MIXBLOCK is ROUND of that lane and its own word, so equal lanes and words give equal
results. -/
theorem eachWordMixesItsOwnLane : Obligations.EachWordMixesItsOwnLane := by
  intro P v w a b _ _
  refine ⟨⟨rfl, rfl, rfl, rfl⟩, ?_, ?_, ?_, ?_⟩ <;>
  · intro hlane hword
    simp only [mixBlock, hlane, hword]

end Sys2Proof.Proofs
end

section
/-! SUPPORT. One WRITE after another, and what a WRITE that fills a block leaves in the carry buffer (42_stream_commands.md
R97 to R104). -/

namespace Sys2Proof.Machine

/-- The tail of a stream and of more bytes after it: the full blocks of the stream play no part. -/
theorem drop_processConsumed_append (S p : Bytes) :
    (S.drop (processConsumed S) ++ p).drop (processConsumed (S.drop (processConsumed S) ++ p)) =
      (S ++ p).drop (processConsumed (S ++ p)) := by
  have hle : processConsumed S ≤ S.length := Nat.mul_div_le ..
  have hconsumed : processConsumed (S ++ p) =
      processConsumed S + processConsumed (S.drop (processConsumed S) ++ p) := by
    simp only [processConsumed, List.length_append, List.length_drop]
    omega
  rw [hconsumed, ← List.drop_drop, List.drop_append_of_le_length hle]

variable {P : Primes} {p : Bytes} {s : State}

/-- WRITE a; WRITE b is WRITE (a ++ b) (R104). -/
theorem writeDigest_writeDigest (P : Primes) (a b : Bytes) (hn : s.n ≤ 31) :
    writeDigest P b (writeDigest P a s) = writeDigest P (a ++ b) s := by
  rw [writeDigest_eq P b (writeDigest_n_le P a s), writeDigest_eq P a hn, writeDigest_eq P (a ++ b) hn]
  simp only [drop_processConsumed_append, ← List.append_assoc, List.length_append, BitVec.ofNat_add, add_assoc]
  simp only [processConsumed, process_append_tail]

/-- WRITE does not look at the responses. -/
theorem writeDigest_respond (P : Primes) (p : Bytes) (r : Response) (hn : s.n ≤ 31) :
    writeDigest P p (s.respond r) = (writeDigest P p s).respond r := by
  rw [writeDigest_eq P p hn, writeDigest_eq P p (s := s.respond r) hn]
  rfl

theorem writeDigest_nil (P : Primes) (hn : s.n ≤ 31) : writeDigest P [] s = s := by
  rw [writeDigest_of_fits P (p := []) (Nat.lt_succ_of_le hn)]
  simp

/-- N after WRITE, whether or not a block was filled. -/
theorem writeDigest_n (P : Primes) (p : Bytes) (hn : s.n ≤ 31) : (writeDigest P p s).n = (s.n + p.length) % 32 := by
  rw [writeDigest_eq P p hn, n_eq_length, List.length_drop, processConsumed, List.length_append, ← n_eq_length]
  omega

/-- Where WRITE fills a block, the last block boundary lies in the payload and the bytes behind it stay in BUF (R101). -/
theorem writeDigest_buf_getElem? (P : Primes) (hn : s.n ≤ 31) (hfull : 32 ≤ s.n + p.length) (a : Nat) :
    (writeDigest P p s).buf[a]? = p[p.length - (writeDigest P p s).n + a]? := by
  have hlength : (s.buf ++ p).length = s.n + p.length := List.length_append
  have hpast : s.buf.length ≤ processConsumed (s.buf ++ p) + a := by
    rw [processConsumed, hlength, ← n_eq_length]
    omega
  rw [writeDigest_n P p hn, writeDigest_eq P p hn, List.getElem?_drop, List.getElem?_append_right hpast, processConsumed,
    hlength, ← n_eq_length]
  congr 1
  omega

/-- The second check refuses every command while FAULT = 1 (60_exceptions.md R132). -/
theorem exec_of_faulted (i : Instr) (hr : s.resetDone = true) (hf : s.fault = true) : exec i s = .refused .faulted := by
  rw [exec_eq, whenReady, if_pos hr, if_pos hf]

/-- RESET on the state RESET leaves changes nothing of the digest state (R96). -/
theorem effectOf_reset_idempotent (P : Primes) (s : State) :
    (effectOf P (effectOf P s .reset) .reset).lanes = (effectOf P s .reset).lanes ∧
    (effectOf P (effectOf P s .reset) .reset).total = (effectOf P s .reset).total ∧
    (effectOf P (effectOf P s .reset) .reset).n = (effectOf P s .reset).n := ⟨rfl, rfl, rfl⟩

/-- Where the payload fits, what WRITE stores begins at N (R98). -/
theorem buf_append_getElem?_of_outside {a : Nat} (ha : a < s.n ∨ s.n + p.length ≤ a) :
    (s.buf ++ p)[a]? = s.buf[a]? := by
  rcases ha with ha | ha
  · exact List.getElem?_append_left ha
  · rw [List.getElem?_eq_none (by rwa [List.length_append]), List.getElem?_eq_none (by rw [← n_eq_length]; omega)]

end Sys2Proof.Machine
end

section
/-! The further statements of 42_stream_commands.md: O19, O21, O16, O20. -/

namespace Sys2Proof.Proofs

open Sys2Proof Sys2Proof.Machine

/-- Settles O19: the state left is `writeDigest`'s, in step 1 by `writeDigest_of_fits`, in steps 2 to 4 by
`writeDigest_buf_getElem?`. -/
theorem writeFrame : Obligations.WriteFrame := by
  intro p s t hn h
  obtain ⟨_, _, rfl⟩ := exec_next h
  refine ⟨effectOf_fault _ s _, effectOf_resetDone _ s _, effectOf_port _ s _, fun hfit => ?_, fun hfull => ?_⟩
  · rw [effectOf, writeDigest_of_fits _ hfit]
    exact ⟨rfl, fun _ ha => buf_append_getElem?_of_outside ha⟩
  · exact ⟨writeDigest_n _ p hn, fun a _ => writeDigest_buf_getElem? _ hn hfull a⟩

/-- Settles O21: the first WRITE's response is not looked at, and two WRITEs are one by `writeDigest_writeDigest`. -/
theorem chunkingDoesNotMatter : Obligations.ChunkingDoesNotMatter := by
  intro a b s hs hn
  have htwo : effectOf Config.primes (effectOf Config.primes s (.write a)) (.write b) =
      ((writeDigest Config.primes (a ++ b) s).respond (.u64 (BitVec.ofNat 64 a.length))).respond
        (.u64 (BitVec.ofNat 64 b.length)) := by
    simp only [effectOf, writeDigest_respond _ b _ (writeDigest_n_le _ a s), writeDigest_writeDigest _ a b hn]
  refine ⟨_, _, _, exec_of_ready hs _, exec_of_ready (ready_effectOf _ hs _) _, exec_of_ready hs _, ?_⟩
  rw [htwo]
  exact ⟨rfl, rfl, rfl⟩

/-- Settles O16: a ready core completes RESET with its effect, written out by `effectOf_reset`; the effect reads nothing of
the digest state, and the second check refuses the command while FAULT = 1. -/
theorem resetSeedsTheState : Obligations.ResetSeedsTheState := by
  intro s
  refine ⟨fun hs => ?_, fun t u ht hu => ?_, fun hr hf => exec_of_faulted .reset hr hf⟩
  · rw [exec_of_ready hs, effectOf_reset]
  · obtain ⟨_, _, rfl⟩ := exec_next ht
    obtain ⟨_, _, rfl⟩ := exec_next hu
    exact effectOf_reset_idempotent Config.primes s

/-- Settles O20: nothing is appended to BUF and TOTAL grows by 0. -/
theorem emptyWriteIsANoOp : Obligations.EmptyWriteIsANoOp := by
  intro s hs hn
  rw [exec_of_ready hs, effectOf, writeDigest_nil _ hn]
  rfl

end Sys2Proof.Proofs
end

section
/-! SUPPORT. The loops of finalization in closed form, and the effects of the reading commands and of HASH written out
(43_finalization.md R105 to R112, 44_oneshot.md R122). -/

namespace Sys2Proof.Machine

/-- Tier (a) takes every whole word from index `i` on, and stops behind the last (R105). -/
theorem tail8Loop_eq (P : Primes) (tail : Bytes) (fuel i : Nat) (h : Word) (hfuel : (tail.length - i) / 8 ≤ fuel) :
    tail8Loop P tail fuel i h =
      (i + 8 * ((tail.length - i) / 8),
        (List.range ((tail.length - i) / 8)).foldl (fun g j => tail8 P g (slice tail (i + 8 * j) 8)) h) := by
  induction fuel generalizing i h with
  | zero => simp [tail8Loop, Nat.le_zero.mp hfuel]
  | succ fuel ih =>
    by_cases hword : 8 ≤ tail.length - i
    · have hdiv : (tail.length - i) / 8 = (tail.length - (i + 8)) / 8 + 1 := by omega
      have hindex : ∀ j, i + 8 * (j + 1) = i + 8 + 8 * j := fun j => by ring
      rw [tail8Loop, if_pos hword, ih _ _ (by omega), hdiv, List.range_succ_eq_map, List.foldl_cons, List.foldl_map]
      simp only [Nat.succ_eq_add_one, hindex, Nat.mul_zero, Nat.add_zero]
    · have hdiv : (tail.length - i) / 8 = 0 := by omega
      rw [tail8Loop_stop P tail _ i h (Nat.lt_of_not_le hword), hdiv]
      rfl

/-- Tier (c) takes every byte from index `i` on (R105). -/
theorem tail1Loop_eq (P : Primes) (tail : Bytes) (fuel i : Nat) (h : Word) (hfuel : tail.length - i ≤ fuel) :
    tail1Loop P tail fuel i h = (tail.drop i).foldl (tail1 P) h := by
  induction fuel generalizing i h with
  | zero => rw [tail1Loop, List.drop_of_length_le (by omega), List.foldl_nil]
  | succ fuel ih =>
    by_cases hbyte : i < tail.length
    · rw [tail1Loop, List.getElem?_eq_getElem hbyte, List.drop_eq_getElem_cons hbyte, List.foldl_cons]
      exact ih _ _ (by omega)
    · rw [tail1Loop_stop P tail _ i h (Nat.le_of_not_lt hbyte), List.drop_of_length_le (Nat.le_of_not_lt hbyte),
        List.foldl_nil]

/-- The three tiers in closed form (R112): the words, then four bytes if there are so many, then the bytes left. -/
theorem consumeTail_eq (P : Primes) (tail : Bytes) (h : Word) :
    consumeTail P tail h =
      (tail.drop (8 * (tail.length / 8) + if 4 ≤ tail.length % 8 then 4 else 0)).foldl (tail1 P)
        (if 4 ≤ tail.length % 8 then
          tail4 P ((List.range (tail.length / 8)).foldl (fun g j => tail8 P g (slice tail (8 * j) 8)) h)
            (slice tail (8 * (tail.length / 8)) 4)
        else (List.range (tail.length / 8)).foldl (fun g j => tail8 P g (slice tail (8 * j) 8)) h) := by
  have hwords := tail8Loop_eq P tail tail.length 0 h (Nat.div_le_self ..)
  simp only [Nat.sub_zero, Nat.zero_add] at hwords
  have hleft : tail.length - 8 * (tail.length / 8) = tail.length % 8 := by omega
  have hbytes : ∀ i, tail.length - i ≤ tail.length := fun i => Nat.sub_le ..
  simp only [consumeTail, hwords, tail4Step, hleft, tail1Loop_eq P tail _ _ _ (hbytes _)]
  split <;> rfl

/-- Below 32 bytes CONVERGE does not run and SHORT reads V3 alone (R107). -/
theorem finalize_of_short (P : Primes) (v : Lanes) {total : Word} (tail : Bytes) (ht : total < 32#64) :
    finalize P v total tail = avalanche P (consumeTail P tail (addLen (v.v3 + P.prime5) total)) := by
  rw [finalize, if_neg (BitVec.not_le.mpr ht), short]

theorem effectOf_sum64 (P : Primes) (s : State) : effectOf P s .sum64 =
    { s with responses := s.responses ++ [.u64 (finalize P s.lanes s.total s.buf)] } := by
  rw [effectOf, digest_eq, State.respond]

theorem effectOf_sumbe (P : Primes) (s : State) : effectOf P s .sumbe =
    { s with responses := s.responses ++ [.bytes8 (be64 (finalize P s.lanes s.total s.buf))] } := by
  rw [effectOf, digest_eq, State.respond]

/-- HASH's effect written out: of the state before it the digest state is not read (44_oneshot.md R120, R122). -/
theorem effectOf_hash (P : Primes) (s : State) (p : Bytes) : effectOf P s (.hash p) =
    { s with
      lanes := process P (Lanes.init P) p
      total := BitVec.ofNat 64 p.length
      buf := p.drop (32 * (p.length / 32))
      responses := s.responses ++ [.u64 (xxh64 P p)] } := by
  rw [effectOf, digest_hashDigest, hashDigest, writeDigest_of_empty P p (clearDigest_buf s P)]
  simp [State.respond, processConsumed]

/-- HASH's effect by commands: RESET, WRITE, and one response, FINALIZE of the state they leave (R122, R123). -/
theorem effectOf_hash_eq_reset_write (P : Primes) (s : State) (p : Bytes) : effectOf P s (.hash p) =
    { effectOf P (effectOf P s .reset) (.write p) with
      responses := s.responses ++ [.u64 ((effectOf P (effectOf P s .reset) (.write p)).digest P)] } := by
  have hwrite : effectOf P (effectOf P s .reset) (.write p) =
      ((hashDigest P p s).respond .unit).respond (.u64 (BitVec.ofNat 64 p.length)) := by
    rw [effectOf, effectOf, writeDigest_respond P p _ (Nat.zero_le _), hashDigest]
  rw [hwrite, effectOf, State.respond, hashDigest_responses]
  rfl

/-- The empty stream's digest with the primes of the configuration (95_test_vectors.md T1). -/
theorem xxh64_nil : xxh64 Config.primes [] = 0xEF46DB3751D8E999 := by decide

end Sys2Proof.Machine
end

section
/-! The further statements of 43_finalization.md: O26, O23, O24, O25. -/

namespace Sys2Proof.Proofs

open Sys2Proof Sys2Proof.Machine

/-- Settles O26: `consumeTail_eq`. -/
theorem tailIsConsumedBySchedule : Obligations.TailIsConsumedBySchedule := consumeTail_eq

/-- Settles O23: a ready core completes SUM64 with its effect. -/
theorem sum64RespondsTheDigest : Obligations.Sum64RespondsTheDigest := fun s hs =>
  (exec_of_ready hs .sum64).trans (congrArg _ (effectOf_sum64 _ s))

/-- Settles O24: the value is FINALIZE of the state, in both effects. -/
theorem sumbeRespondsBigEndianBytes : Obligations.SumbeRespondsBigEndianBytes := fun s hs =>
  ⟨finalize Config.primes s.lanes s.total s.buf, _, exec_of_ready hs .sum64, effectOf_responses_eq _ s .sum64,
    (exec_of_ready hs .sumbe).trans (congrArg _ (effectOf_sumbe _ s))⟩

/-- Settles O25: on the short path FINALIZE is a function of V3, TOTAL and the tail. -/
theorem shortPathReadsOnlyV3 : Obligations.ShortPathReadsOnlyV3 := by
  intro P v w total tail ht h3
  rw [finalize_of_short P v tail ht, finalize_of_short P w tail ht, h3]

end Sys2Proof.Proofs
end

section
/-! The further statements of 44_oneshot.md: O29, O30, O27. -/

namespace Sys2Proof.Proofs

open Sys2Proof Sys2Proof.Machine

/-- Settles O29: RESET, WRITE and HASH each complete with their effects, and HASH's is the other two's. -/
theorem hashIsResetWriteFinalize : Obligations.HashIsResetWriteFinalize := by
  intro p s hs
  refine ⟨_, _, exec_of_ready hs .reset, exec_of_ready (ready_effectOf _ hs .reset) (.write p), ?_⟩
  rw [exec_of_ready hs, effectOf_hash_eq_reset_write, digest_eq]

/-- Settles O30: a ready core completes HASH with its effect, written out by `effectOf_hash`. -/
theorem hashDependsOnItsPayloadAlone : Obligations.HashDependsOnItsPayloadAlone := fun p s hs =>
  (exec_of_ready hs (.hash p)).trans (congrArg _ (effectOf_hash _ s p))

/-- Settles O27: the state after reset stands for the empty stream, so all three commands respond its XXH64, which is
evaluated. -/
theorem emptyDigestVector : Obligations.EmptyDigestVector := by
  have hdigest : State.reset.digest Config.primes = 0xEF46DB3751D8E999 :=
    (digest_of_represents (represents_resetAt Config.primes)).trans xxh64_nil
  refine ⟨?_, ?_, ?_⟩
  · rw [exec_of_ready ready_reset, effectOf, hdigest]
    rfl
  · rw [exec_of_ready ready_reset, effectOf, hdigest]
    rfl
  · rw [exec_of_ready ready_reset, effectOf_hash, xxh64_nil]
    rfl

end Sys2Proof.Proofs
end

section
/-! SUPPORT. Running a list of micro-operations: the schedules of RESET, of WRITE and of finalization have the effects of
the commands they are lists of (45_sequencing_and_system.md R127, R128). -/

namespace Sys2Proof.Machine

variable (P : Primes) (p : Bytes) (s : State) (h : Word)

theorem runMicro_append (a b : List MicroOp) (w : Work) :
    runMicro P p (a ++ b) w = runMicro P p b (runMicro P p a w) := List.foldl_append

theorem runMicro_cons (op : MicroOp) (ops : List MicroOp) (w : Work) :
    runMicro P p (op :: ops) w = runMicro P p ops (microStep P p w op) := rfl

/-- The six register writes of RESET (R96). -/
theorem runMicro_resetSchedule : runMicro P p resetSchedule ⟨s, h⟩ = ⟨s.clearDigest P, h⟩ := rfl

/-- Step 2 of WRITE is its two micro-operations, run where the buffer is not empty (R99). -/
theorem runMicro_topOff :
    runMicro P p (if 0 < s.n then [.topOff (if 0 < s.n then 32 - s.n else 0), .drain] else []) ⟨s, h⟩ =
      ⟨(topOff P p s).1, h⟩ := by
  by_cases h0 : 0 < s.n
  · simp only [topOff, if_pos h0]
    rfl
  · simp only [topOff, if_neg h0]
    rfl

/-- The payload position step 2 reaches (R99). -/
theorem topOff_snd : (topOff P p s).2 = if 0 < s.n then 32 - s.n else 0 := by
  unfold topOff
  split <;> rfl

/-- Step 3 of WRITE, block by block from payload position `i` (R100). -/
theorem runMicro_mixPayload (i m : Nat) :
    runMicro P p ((List.range m).map fun b => .mixPayload (i + 32 * b)) ⟨s, h⟩ =
      ⟨s.setLanes (processBlocks P (p.drop i) m s.lanes), h⟩ := by
  induction m with
  | zero => rfl
  | succ m ih =>
    rw [List.range_succ, List.map_append, runMicro_append, ih, processBlocks, slice_drop]
    rfl

/-- The schedule of WRITE has the effect of WRITE (R97 to R101). -/
theorem runMicro_writeSchedule : runMicro P p (writeSchedule s.n p.length) ⟨s, h⟩ = ⟨writeDigest P p s, h⟩ := by
  by_cases hfit : s.n + p.length < 32
  · rw [writeSchedule, if_pos hfit, writeDigest, addTotal_n, if_pos hfit]
    rfl
  · have hfuel : (p.length - (topOff P p (s.addTotal p.length)).2) / 32 ≤ p.length / 32 :=
      Nat.div_le_div_right (Nat.sub_le ..)
    rw [writeDigest, addTotal_n, if_neg hfit, writeBlocks, mixPayload_eq P p _ _ _ hfuel, process, List.length_drop,
      topOff_snd, addTotal_n, writeSchedule, if_neg hfit]
    have htop := runMicro_topOff P p (s.addTotal p.length) h
    rw [addTotal_n] at htop
    simp only [runMicro_cons, runMicro_append, microStep, htop, runMicro_mixPayload]
    rfl

/-- The words of the tail schedule leave the state alone and run TAIL8 on each (R112). -/
theorem runMicro_tail8 (m : Nat) :
    runMicro P p ((List.range m).map fun j => .tail8 (8 * j)) ⟨s, h⟩ =
      ⟨s, (List.range m).foldl (fun g j => tail8 P g (slice s.buf (8 * j) 8)) h⟩ := by
  induction m with
  | zero => rfl
  | succ m ih =>
    rw [List.range_succ, List.map_append, runMicro_append, ih, List.foldl_append]
    rfl

/-- The four bytes of the tail schedule, where there are so many (R112). -/
theorem runMicro_tail4 (n i : Nat) :
    runMicro P p (if 4 ≤ n then [.tail4 i] else []) ⟨s, h⟩ =
      ⟨s, if 4 ≤ n then tail4 P h (slice s.buf i 4) else h⟩ := by
  split <;> rfl

/-- The single bytes of the tail schedule run TAIL1 along the slice they make up (R112). -/
theorem runMicro_tail1 (i m : Nat) :
    runMicro P p ((List.range m).map fun j => .tail1 (i + j)) ⟨s, h⟩ =
      ⟨s, (slice s.buf i m).foldl (tail1 P) h⟩ := by
  induction m with
  | zero => rfl
  | succ m ih =>
    have hslice : slice s.buf i (m + 1) = slice s.buf i m ++ slice s.buf (i + m) 1 := by
      rw [slice, List.take_add, List.drop_drop]
      rfl
    rw [List.range_succ, List.map_append, runMicro_append, ih, hslice, List.foldl_append]
    rfl

/-- The tail schedule consumes BUF[0..N) (R112). -/
theorem runMicro_tailSchedule : runMicro P p (tailSchedule s.n) ⟨s, h⟩ = ⟨s, consumeTail P s.buf h⟩ := by
  have hrest : slice s.buf (8 * (s.n / 8) + if 4 ≤ s.n % 8 then 4 else 0) (s.n % 8 % 4) =
      s.buf.drop (8 * (s.n / 8) + if 4 ≤ s.n % 8 then 4 else 0) := by
    refine List.take_of_length_le ?_
    rw [List.length_drop, ← n_eq_length]
    split <;> omega
  rw [tailSchedule, runMicro_append, runMicro_append, runMicro_tail8, runMicro_tail4, runMicro_tail1, hrest,
    consumeTail_eq]
  rfl

/-- The finalization schedule computes the digest and leaves the state alone (R105, R115). -/
theorem runMicro_finalizeSchedule : runMicro P p (finalizeSchedule s.total s.n) ⟨s, h⟩ = ⟨s, s.digest P⟩ := by
  have hstart : microStep P p ⟨s, h⟩ (if 32#64 ≤ s.total then .converge else .short) =
      ⟨s, if 32#64 ≤ s.total then converge P s.lanes else short P s.lanes⟩ := by
    split <;> rfl
  rw [finalizeSchedule, runMicro_cons, runMicro_cons, hstart, microStep, runMicro_append, runMicro_tailSchedule,
    digest_eq]
  rfl

/-- The schedule of HASH is that of RESET, WRITE and finalization, at the N and TOTAL those leave (R122, R127). -/
theorem runMicro_hashSchedule (n : Nat) (total : Word) :
    runMicro P p (commandSchedule (.hash p) n total) ⟨s, h⟩ = ⟨hashDigest P p s, (hashDigest P p s).digest P⟩ := by
  have hn : (hashDigest P p s).n = p.length % 32 := by
    rw [hashDigest, writeDigest_n P p (Nat.zero_le _), clearDigest_n, Nat.zero_add]
  have htotal : (hashDigest P p s).total = BitVec.ofNat 64 p.length := by simp [hashDigest]
  have hwrite := runMicro_writeSchedule P p (s.clearDigest P) h
  rw [clearDigest_n, ← hashDigest] at hwrite
  rw [commandSchedule, runMicro_append, runMicro_append, runMicro_resetSchedule, hwrite, ← htotal, ← hn,
    runMicro_finalizeSchedule]

/-- Every command's effect is the run of its schedule (R127). -/
theorem runSchedule_eq_effectOf (i : Instr) : runSchedule P i s = effectOf P s i := by
  cases i with
  | reset => rfl
  | write p => simp only [runSchedule, commandSchedule, Instr.payload, runMicro_writeSchedule, responseFrom, effectOf]
  | sum64 => simp only [runSchedule, commandSchedule, runMicro_finalizeSchedule, responseFrom, effectOf]
  | sumbe => simp only [runSchedule, commandSchedule, runMicro_finalizeSchedule, responseFrom, effectOf]
  | hash p => simp only [runSchedule, Instr.payload, runMicro_hashSchedule, responseFrom, effectOf]

/-- The schedule as a function of the opcode byte, LEN, N and TOTAL. -/
def scheduleFor (opcode : Byte) (len n : Nat) (total : Word) : List MicroOp :=
  if opcode = 0x01 then resetSchedule
  else if opcode = 0x02 then writeSchedule n len
  else if opcode = 0x05 then
    resetSchedule ++ writeSchedule 0 len ++ finalizeSchedule (BitVec.ofNat 64 len) (len % 32)
  else finalizeSchedule total n

/-- No other property of a command enters its schedule (R127). -/
theorem commandSchedule_eq_scheduleFor (i : Instr) (n : Nat) (total : Word) :
    commandSchedule i n total = scheduleFor i.opcode i.len n total := by
  cases i <;> rfl

end Sys2Proof.Machine
end

section
/-! SUPPORT. How many MIXBLOCK operations and tail steps the schedules hold (70_reset_and_hazards.md R161,
43_finalization.md R112). -/

namespace Sys2Proof.Machine

theorem mixCount_append (a b : List MicroOp) : mixCount (a ++ b) = mixCount a + mixCount b := by
  simp [mixCount]

theorem mixCount_map_mixPayload (f : Nat → Nat) (m : Nat) :
    mixCount ((List.range m).map fun b => .mixPayload (f b)) = m := by
  simp [mixCount, List.filter_map, Function.comp_def]

/-- WRITE mixes one block to top off a buffer that is not empty, and the full blocks that remain of the payload. -/
theorem mixCount_writeSchedule {n : Nat} (hn : n ≤ 31) (L : Nat) : mixCount (writeSchedule n L) = (n + L) / 32 := by
  by_cases hfit : n + L < 32
  · rw [writeSchedule, if_pos hfit, Nat.div_eq_of_lt hfit]
    rfl
  · have hadd : mixCount [.addTotal] = 0 := rfl
    have htop : ∀ k, mixCount [.topOff k, .drain] = 1 := fun _ => rfl
    have hkeep : ∀ i, mixCount [.keep i] = 0 := fun _ => rfl
    have hnil : mixCount [] = 0 := rfl
    rw [writeSchedule, if_neg hfit, ← List.singleton_append]
    simp only [mixCount_append, mixCount_map_mixPayload, hadd, hkeep]
    by_cases h0 : 0 < n
    · simp only [if_pos h0, htop]
      omega
    · simp only [if_neg h0, hnil]
      omega

theorem mixCount_tailSchedule (n : Nat) : mixCount (tailSchedule n) = 0 := by
  simp only [tailSchedule, mixCount_append]
  split <;> simp [mixCount, List.filter_map, Function.comp_def]

theorem mixCount_finalizeSchedule (total : Word) (n : Nat) : mixCount (finalizeSchedule total n) = 0 := by
  rw [finalizeSchedule, ← List.singleton_append, ← List.singleton_append (l := _ ++ _)]
  simp only [mixCount_append, mixCount_tailSchedule]
  split <;> rfl

theorem mixCount_hashSchedule (p : Bytes) (n : Nat) (total : Word) :
    mixCount (commandSchedule (.hash p) n total) = p.length / 32 := by
  have hreset : mixCount resetSchedule = 0 := rfl
  rw [commandSchedule, mixCount_append, mixCount_append, hreset, mixCount_writeSchedule (Nat.zero_le 31),
    mixCount_finalizeSchedule, Nat.zero_add, Nat.zero_add, Nat.add_zero]

/-- The words, the four bytes if there are so many, and the bytes left (R112). -/
theorem tailSchedule_length (n : Nat) :
    (tailSchedule n).length = n / 8 + (if 4 ≤ n % 8 then 1 else 0) + n % 4 := by
  have hmod : n % 8 % 4 = n % 4 := Nat.mod_mod_of_dvd _ (by decide)
  rw [tailSchedule, List.length_append, List.length_append, List.length_map, List.length_range, List.length_map,
    List.length_range, hmod]
  split <;> rfl

/-- Three words, four bytes and three bytes at most (R112). -/
theorem tailSchedule_length_le {n : Nat} (hn : n ≤ 31) : (tailSchedule n).length ≤ 7 := by
  rw [tailSchedule_length]
  split <;> omega

end Sys2Proof.Machine
end

section
/-! The statements of 45_sequencing_and_system.md and the counts of 70_reset_and_hazards.md section 6: O33, O34. -/

namespace Sys2Proof.Proofs

open Sys2Proof Sys2Proof.Machine

/-- Settles O33: on a ready core a command completes with its effect, which is the run of its schedule for every N; and the
schedule is `scheduleFor` of the opcode and LEN. -/
theorem commandsRunTheirSchedule : Obligations.CommandsRunTheirSchedule := by
  refine ⟨fun P i s hs _ => ?_, fun i s hs _ => ?_, fun i j n total hop hlen => ?_⟩
  · rw [execAt_eq, whenReady_of_ready hs.1 hs.2, runSchedule_eq_effectOf]
  · rw [exec_of_ready hs, runSchedule_eq_effectOf]
  · rw [commandSchedule_eq_scheduleFor, commandSchedule_eq_scheduleFor, hop, hlen]

/-- Settles O34: the schedules of RESET and of finalization hold no MIXBLOCK, and those of WRITE and HASH are counted by
`mixCount_writeSchedule`. -/
theorem microOperationCounts : Obligations.MicroOperationCounts := fun n total hn =>
  ⟨rfl, fun p => mixCount_writeSchedule hn p.length, mixCount_finalizeSchedule total n,
    mixCount_finalizeSchedule total n, fun p => mixCount_hashSchedule p n total, tailSchedule_length n,
    tailSchedule_length_le hn⟩

end Sys2Proof.Proofs
end

section
/-! SUPPORT. Runs from hardware reset over a stream of packets: one step per packet, then what stands behind the last
(70_reset_and_hazards.md R155, R156). -/

namespace Sys2Proof.Machine

/-- A list of commands leaves a ready core ready. -/
theorem ready_foldl_effectOf {s : State} (P : Primes) (hs : Ready s) (cmds : List Instr) :
    Ready (cmds.foldl (effectOf P) s) := by
  induction cmds generalizing s with
  | nil => exact hs
  | cons i cmds ih => exact ih (ready_effectOf P hs i)

/-- Commands leave the port alone. -/
theorem foldl_effectOf_port (P : Primes) (s : State) (cmds : List Instr) :
    (cmds.foldl (effectOf P) s).port = s.port := by
  induction cmds generalizing s with
  | nil => rfl
  | cons i cmds ih => rw [List.foldl_cons, ih, effectOf_port]

/-- A list of commands delivers one response each (30_encoding.md R70). -/
theorem foldl_effectOf_responses_length (P : Primes) (s : State) (cmds : List Instr) :
    (cmds.foldl (effectOf P) s).responses.length = s.responses.length + cmds.length := by
  induction cmds generalizing s with
  | nil => rfl
  | cons i cmds ih =>
    rw [List.foldl_cons, ih, effectOf_responses_eq, List.length_append, List.length_singleton, List.length_cons]
    omega

/-- A run goes no further where there is no next state. -/
theorem runPort_of_no_next {s : State} (h : ∀ t, step s ≠ .next t) (fuel : Nat) : runPort fuel s = s := by
  cases fuel with
  | zero => rfl
  | succ fuel =>
    rw [runPort]
    split
    · next t ht => exact (h t ht).elim
    · rfl
    · rfl

/-- A run goes on from a step's next state. -/
theorem runPort_succ_of_next {s t : State} (h : step s = .next t) (fuel : Nat) :
    runPort (fuel + 1) s = runPort fuel t := by
  rw [runPort, h]

/-- A step of a ready core that has been sent a well-formed command's packet and more bytes. -/
theorem step_of_encode_append {s : State} (hs : Ready s) {i : Instr} (hi : i.wf = true) (rest : Bytes) :
    step { s with port := portBytes (encode i ++ rest) } =
      .next { effectOf Config.primes s i with port := portBytes rest } := by
  have hd : decode (arrived (portBytes (encode i ++ rest))) = .packet i rest := by
    rw [arrived_portBytes_only, decode_encode_append hi]
  have hconsume : State.consumeTo { s with port := portBytes (encode i ++ rest) } rest =
      { s with port := portBytes rest } := by
    rw [State.consumeTo, pending_portBytes_only, List.append_nil]
  rw [step_of_packet (s := { s with port := portBytes (encode i ++ rest) }) hs hd, hconsume,
    exec_of_ready (s := { s with port := portBytes rest }) hs, effectOf_withPort]

/-- With one unit of fuel per command a run executes the commands' packets, in the order of arrival. -/
theorem runPort_flatMap_encode {s : State} (hs : Ready s) {cmds : List Instr} (hcmds : ∀ i ∈ cmds, i.wf = true)
    (fuel : Nat) (rest : Bytes) :
    runPort (cmds.length + fuel) { s with port := portBytes (cmds.flatMap encode ++ rest) } =
      runPort fuel { cmds.foldl (effectOf Config.primes) s with port := portBytes rest } := by
  induction cmds generalizing s with
  | nil => rw [List.length_nil, Nat.zero_add, List.flatMap_nil, List.nil_append, List.foldl_nil]
  | cons i cmds ih =>
    obtain ⟨hi, hcmds⟩ := List.forall_mem_cons.mp hcmds
    rw [List.length_cons, Nat.add_right_comm, List.flatMap_cons, List.append_assoc,
      runPort_succ_of_next (step_of_encode_append hs hi _), ih (ready_effectOf _ hs i) hcmds, List.foldl_cons]

/-- The state a list of commands leaves from reset. -/
def afterCommands (cmds : List Instr) : State := cmds.foldl (effectOf Config.primes) State.reset

theorem ready_afterCommands (cmds : List Instr) : Ready (afterCommands cmds) := ready_foldl_effectOf _ ready_reset cmds

theorem afterCommands_port (cmds : List Instr) : (afterCommands cmds).port = [] :=
  foldl_effectOf_port _ State.reset cmds

theorem afterCommands_responses_length (cmds : List Instr) : (afterCommands cmds).responses.length = cmds.length :=
  (foldl_effectOf_responses_length _ State.reset cmds).trans (Nat.zero_add _)

theorem execAll_reset (cmds : List Instr) : execAll cmds State.reset = .next (afterCommands cmds) :=
  execAll_of_ready ready_reset cmds

/-- A run over whole packets and more bytes comes to the state of the commands with those bytes at the port, and fuel is
left for them. -/
theorem runBytes_flatMap_encode {cmds : List Instr} (hcmds : ∀ i ∈ cmds, i.wf = true) (rest : Bytes) :
    ∃ fuel, runBytes (cmds.flatMap encode ++ rest) =
      runPort (fuel + 1) { afterCommands cmds with port := portBytes rest } := by
  obtain ⟨spare, hspare⟩ := Nat.exists_eq_add_of_le (length_le_length_flatMap_encode cmds)
  refine ⟨spare + rest.length, ?_⟩
  rw [afterCommands, ← runPort_flatMap_encode ready_reset hcmds, runBytes, List.length_append, hspare]
  simp only [Nat.add_assoc]

/-- Where the core is stuck on the bytes behind the packets, the run ends with them at the port. -/
theorem runBytes_of_step_fault {cmds : List Instr} (hcmds : ∀ i ∈ cmds, i.wf = true) {rest : Bytes} {r : Fault}
    (h : step { afterCommands cmds with port := portBytes rest } = .fault r) :
    runBytes (cmds.flatMap encode ++ rest) = { afterCommands cmds with port := portBytes rest } := by
  obtain ⟨fuel, hrun⟩ := runBytes_flatMap_encode hcmds rest
  rw [hrun, runPort_of_no_next (by simp [h])]

/-- With nothing at its port a ready core waits for a packet (R155). -/
theorem step_of_port_nil {s : State} (hs : Ready s) (hp : s.port = []) : step s = .fault .awaitingPacket := by
  rw [step_of_arrived_nil hs (by rw [hp, arrived]), awaitReset_of_pending_nil _ (by rw [hp, pending])]

/-- With bytes at its port and no reset event a faulted core gives no step (60_exceptions.md R132). -/
theorem step_of_faulted_portBytes {s : State} (hr : s.resetDone = true) (b : Bytes) :
    step { s with fault := true, port := portBytes b } = .refused .faulted := by
  rw [step_of_faulted (s := { s with fault := true, port := portBytes b }) hr rfl,
    awaitReset_of_pending_nil _ (pending_portBytes_only b)]

/-- An illegal opcode byte at the front of the bytes is consumed and sets FAULT (60_exceptions.md R131). -/
theorem step_of_illegalOpcode_portBytes {s : State} (hs : Ready s) {op : Byte} (hop : IllegalOpcode op)
    (junk : Bytes) :
    step { s with port := portBytes (op :: junk) } = .next { s with fault := true, port := portBytes junk } := by
  rw [step_of_illegalOpcode (s := { s with port := portBytes (op :: junk) }) hs (arrived_portBytes_only _) hop,
    State.consumeTo, pending_portBytes_only, List.append_nil]
  rfl

end Sys2Proof.Machine
end

section
/-! The further statements of 70_reset_and_hazards.md, and IllegalCommand's precision: O44, O45, O46. -/

namespace Sys2Proof.Proofs

open Sys2Proof Sys2Proof.Machine

/-- Settles O44: behind the packets nothing is left, and the core waits. -/
theorem wholePacketsRunToAGoodEnd : Obligations.WholePacketsRunToAGoodEnd := by
  intro cmds hcmds
  have hready := ready_afterCommands cmds
  have hport := afterCommands_port cmds
  have hsame : { afterCommands cmds with port := portBytes [] } = afterCommands cmds := by rw [portBytes_nil, ← hport]
  have hrun := runBytes_of_step_fault hcmds ((congrArg step hsame).trans (step_of_port_nil hready hport))
  rw [List.append_nil, hsame] at hrun
  exact ⟨_, execAll_reset cmds, hrun, afterCommands_responses_length cmds, hready.2, hport⟩

/-- Settles O45: behind the packets the beginning of one more gives no step, and stays at the port. -/
theorem runEndingInsideAPacketIsStuck : Obligations.RunEndingInsideAPacketIsStuck := by
  intro cmds i k hcmds hi h0 hk
  have hstep : step { afterCommands cmds with port := portBytes ((encode i).take k) } = .fault .packetIncomplete := by
    refine step_of_incomplete (ready_afterCommands cmds) ?_ (pending_portBytes_only _)
    rw [arrived_portBytes_only, decode_take_encode hi h0 hk]
  have hrun := runBytes_of_step_fault hcmds hstep
  refine ⟨_, execAll_reset cmds, hrun, by rw [hrun, hstep], fun ⟨_, hport⟩ => ?_⟩
  have hlength := congrArg List.length hport
  rw [hrun, portBytes, List.length_map, List.length_take, List.length_nil] at hlength
  omega

/-- Settles O46: behind the packets the illegal byte takes one step, which sets FAULT, and then there is none. -/
theorem illegalCommandIsPrecise : Obligations.IllegalCommandIsPrecise := by
  intro cmds op junk hcmds hop
  have hready := ready_afterCommands cmds
  obtain ⟨fuel, hrun⟩ := runBytes_flatMap_encode hcmds (op :: junk)
  rw [runPort_succ_of_next (step_of_illegalOpcode_portBytes hready hop junk),
    runPort_of_no_next (by simp [step_of_faulted_portBytes hready.1 junk])] at hrun
  refine ⟨_, execAll_reset cmds, afterCommands_responses_length cmds, hrun, fun ⟨hfault, _⟩ => ?_⟩
  rw [hrun] at hfault
  cases hfault

end Sys2Proof.Proofs
end

section
/-! SUPPORT. The faulted core, the step at any primes, and one core of a platform (60_exceptions.md R132, R143, 10_state.md
R31). -/

namespace Sys2Proof.Machine

/-- While FAULT = 1 a step is the reset event's (60_exceptions.md R132). -/
theorem pending_of_step_faulted {s t : State} (hf : s.fault = true) (h : step s = .next t) :
    ∃ rest, pending s.port = .hardwareReset :: rest ∧ t = s.hardwareReset Config.primes rest := by
  rcases step_cases h with hreset | ⟨_, hf', _⟩ | ⟨_, hf', _⟩
  · exact hreset
  · simp [hf] at hf'
  · simp [hf] at hf'

/-- For any primes a ready core consumes the packet at its port and executes its command (30_encoding.md R66). -/
theorem stepAt_of_packet (P : Primes) {s : State} {i : Instr} {rest : Bytes} (hs : Ready s)
    (hd : decode (arrived s.port) = .packet i rest) : stepAt P s = execAt P i (s.consumeTo rest) := by
  obtain ⟨hr, hf⟩ := hs
  simp [stepAt, stepBy, hr, hf, hd]

/-- All a step of a platform's core that answers a next state can have done: that core took its step, and its state was
put in its place (60_exceptions.md R143). -/
theorem stepCore_next {pl pl' : Platform} {k : Nat} (h : pl.stepCore k = some (.next pl')) :
    ∃ s t, pl.cores[k]? = some s ∧ step s = .next t ∧ pl' = ⟨pl.cores.set k t⟩ := by
  unfold Platform.stepCore Platform.stepCoreBy at h
  split at h
  · cases h
  · next s hs =>
    split at h
    · next t ht =>
      cases h
      exact ⟨s, t, hs, ht, rfl⟩
    · cases h
    · cases h

end Sys2Proof.Machine
end

section
/-! The further statements of 60_exceptions.md, and those of the step and the platform: O37, O35, O48, O40, O47. -/

namespace Sys2Proof.Proofs

open Sys2Proof Sys2Proof.Machine

/-- Settles O37: the second check refuses commands and bytes, and a step can only be the reset event's. -/
theorem faultedCoreExecutesNothing : Obligations.FaultedCoreExecutesNothing := by
  intro s hr hf
  refine ⟨fun i => exec_of_faulted i hr hf, fun hp => ?_, fun t h => ?_⟩
  · rw [step_of_faulted hr hf, awaitReset_of_pending_nil _ hp]
  · obtain ⟨rest, hp, rfl⟩ := pending_of_step_faulted hf h
    exact ⟨rfl, rest, hp⟩

/-- Settles O35: `step_of_packet`. -/
theorem stepExecutesThePacket : Obligations.StepExecutesThePacket := fun _ _ _ => step_of_packet

/-- Settles O48: `exec` and `step` run the parametric functions, and `stepAt_of_packet`. -/
theorem primesAreAParameterOfTheStep : Obligations.PrimesAreAParameterOfTheStep :=
  ⟨exec_eq_execAt, step_eq_stepAt, rfl, fun P _ _ _ => stepAt_of_packet P⟩

/-- Settles O40: the lanes' numbers are evaluated from the primes. -/
theorem resetStateValues : Obligations.ResetStateValues := ⟨by decide, rfl, rfl, rfl, rfl⟩

/-- Settles O47: the stepped core's new state stands in its own place and in no other. -/
theorem coresShareNothing : Obligations.CoresShareNothing := by
  intro pl pl' k h
  obtain ⟨s, t, hs, ht, rfl⟩ := stepCore_next h
  obtain ⟨hk, _⟩ := List.getElem?_eq_some_iff.mp hs
  exact ⟨⟨s, t, hs, ht, List.getElem?_set_self hk⟩, fun j hj => List.getElem?_set_ne hj.symm⟩

end Sys2Proof.Proofs
end
